-- ==== Sys2Proof/Word.lean ====
section
/-!
DEFINITION. The words of the CORE: the byte, the 9-bit program counter value, and the one widening
between them (spec/00_scope.md R8, R11, R12).
-/

namespace Sys2Proof

/-- A byte: 8 bits, unsigned (R11). Registers, memory cells, SP, opcodes and operands are bytes (R6, R7, R9). -/
abbrev Byte := BitVec 8

/-- A program counter value, 9 bits wide; the machine holds only 0 to 256 in it (R8). -/
abbrev PcWord := BitVec 9

/-- `zext_9` of R12: a byte as a program counter value. -/
def zext9 (b : Byte) : PcWord := b.setWidth 9

end Sys2Proof
end

