-- ==== Sys2Proof/Config.lean ====
section
/-!
DEFINITION. The parameters a model of the CORE takes (spec/00_scope.md R10) as types. Their DEFAULT
values stand in Decode.lean (`defaultOpcodes`) and Machine/Defaults.lean (`defaultParams`). The spec leaves no
value open after an instruction, so there is no free value here.
-/

namespace Sys2Proof

/-- The nine mnemonics: the decoder's output `kind` (spec/30_encoding.md R67), in the order of R64. -/
inductive Kind where
  | hlt | ldi | prn | mul | add | push | pop | call | ret
  deriving DecidableEq, Repr

/-- The parameter `OPCODES`: one byte value for each mnemonic (R10, R64). Which maps are well-formed: R65,
`Opcodes.wellFormed` of WellFormed.lean. -/
structure Opcodes where
  hlt  : Byte
  ldi  : Byte
  prn  : Byte
  mul  : Byte
  add  : Byte
  push : Byte
  pop  : Byte
  call : Byte
  ret  : Byte
  deriving DecidableEq, Repr

/-- The byte the map gives a mnemonic. -/
def Opcodes.byteOf (m : Opcodes) : Kind → Byte
  | .hlt  => m.hlt
  | .ldi  => m.ldi
  | .prn  => m.prn
  | .mul  => m.mul
  | .add  => m.add
  | .push => m.push
  | .pop  => m.pop
  | .call => m.call
  | .ret  => m.ret

/-- The parameter `ADD_B_SELECT`: which register ADD takes its second operand from (R10, spec/42_alu.md R113). -/
inductive AddBSelect where
  | regA
  | regB
  deriving DecidableEq, Repr

/-- The four parameters of R10; "No other parameter exists". -/
structure Params where
  /-- `SP_INIT`, the stack pointer after reset. -/
  spInit : Byte
  /-- `OPCODES`. -/
  opcodes : Opcodes
  /-- `ADD_B_SELECT`. -/
  addBSelect : AddBSelect
  /-- `TRACE_ENABLE`: whether the trace port presents records (spec/60_exceptions.md R158). -/
  traceEnable : Bool
  deriving DecidableEq, Repr

end Sys2Proof
end

