-- ==== Sys2Proof/Syntax.lean ====
section
/-!
DEFINITION. The CORE's instructions as syntax: one constructor for each row of spec/opcode_table.json, with the
operand bytes of its format (spec/30_encoding.md R62). An operand is the WHOLE byte (R63): a register
index is checked by the step, never cut to three bits, so an index of 8 or more is an instruction that
decodes and faults.
-/

namespace Sys2Proof

inductive Instr where
  /-- HLT: halt (R100). -/
  | hlt
  /-- LDI reg, imm: load immediate (R101). -/
  | ldi (reg imm : Byte)
  /-- PRN reg: print register (R102). -/
  | prn (reg : Byte)
  /-- MUL reg_a, reg_b: multiply (R112). -/
  | mul (regA regB : Byte)
  /-- ADD reg_a, reg_b: add (R113). -/
  | add (regA regB : Byte)
  /-- PUSH reg: push a register (R120). -/
  | push (reg : Byte)
  /-- POP reg: pop into a register (R121). -/
  | pop (reg : Byte)
  /-- CALL reg: call the subroutine whose address the register holds (R130). -/
  | call (reg : Byte)
  /-- RET: return from subroutine (R131). -/
  | ret
  deriving DecidableEq, Repr

end Sys2Proof
end

