-- ==== Sys2Proof/WellFormed.lean ====
section
/-!
DEFINITION. What makes an instruction and an `OPCODES` map well-formed: a register-index operand names one of
R0 to R7 (spec/10_state.md R25), and the map meets the two conditions of spec/30_encoding.md R65.
-/

namespace Sys2Proof

/-- A register-index operand byte is valid when its value is 0 to 7 (R25). -/
def validReg (b : Byte) : Bool := decide (b.toNat ≤ 7)

/-- Every register-index operand is valid; the immediate of LDI is never checked (R89). -/
def Instr.wellFormed : Instr → Bool
  | .hlt => true
  | .ldi reg _ => validReg reg
  | .prn reg => validReg reg
  | .mul regA regB => validReg regA && validReg regB
  | .add regA regB => validReg regA && validReg regB
  | .push reg => validReg reg
  | .pop reg => validReg reg
  | .call reg => validReg reg
  | .ret => true

/-- The nine mnemonics, in the order of R64's table. -/
def allKinds : List Kind := [.hlt, .ldi, .prn, .mul, .add, .push, .pop, .call, .ret]

/-- How many operand bytes a mnemonic has (R62). -/
def operandCount : Kind → Nat
  | .hlt | .ret => 0
  | .prn | .push | .pop | .call => 1
  | .ldi | .mul | .add => 2

/-- Condition 1 of R65: the nine bytes are pairwise distinct. -/
def Opcodes.distinct (m : Opcodes) : Bool := decide (allKinds.map m.byteOf).Nodup

/-- Condition 2 of R65: bits [7:6] of each byte are its mnemonic's operand count. -/
def Opcodes.countsAgree (m : Opcodes) : Bool :=
  allKinds.all fun k => ((m.byteOf k).extractLsb 7 6).toNat == operandCount k

/-- R65. A machine is built only from a well-formed map (`boot` of Machine/HostInterface.lean). -/
def Opcodes.wellFormed (m : Opcodes) : Bool := m.distinct && m.countsAgree

end Sys2Proof
end

