-- ==== Sys2Proof/Decode.lean ====
section
/-!
DEFINITION. The instruction_decoder (spec/30_encoding.md R66, R67, R69), decoding of byte strings, and, after it,
the encoder written from the same formats (R62, R64). Decoding is by exact match of the whole opcode byte with the
map `OPCODES`; a byte string that starts with no instruction is rejected by name.
-/

namespace Sys2Proof

/-! ### The decoder's control outputs (R67) -/

/-- What an operand byte is to the instruction: a register index, data, or not part of it (R67). -/
inductive OpRole where
  | reg | imm | unused
  deriving DecidableEq, Repr

/-- The byte_alu's operation, a closed two-value select (spec/42_alu.md R110). -/
inductive AluOp where
  | add | mul
  deriving DecidableEq, Repr

/-- Source of the register write, if any (R67, column "reg write source"). -/
inductive RegSource where
  | none | imm | alu | mem
  deriving DecidableEq, Repr

/-- The data access and, for a write, its data (R67, column "mem"). -/
inductive MemOp where
  | none | read | writeReg | writeRet
  deriving DecidableEq, Repr

/-- The stack pointer control (R67, spec/40_cycle.md R87). -/
inductive SpOp where
  | none | dec | inc
  deriving DecidableEq, Repr

/-- The source of the next program counter (spec/40_cycle.md R84). -/
inductive PcSel where
  | seq | target | mem | hold
  deriving DecidableEq, Repr

/-- One row of R67's table. `aluOp` is none where the table has a dash. -/
structure Control where
  len : Nat
  op1Role : OpRole
  op2Role : OpRole
  aluOp : Option AluOp
  regWrite : RegSource
  mem : MemOp
  spOp : SpOp
  pcSel : PcSel
  outEn : Bool
  halt : Bool
  deriving DecidableEq, Repr

/-- R67's table. -/
def controls : Kind → Control
  | .hlt  => ⟨1, .unused, .unused, none, .none, .none, .none, .hold, false, true⟩
  | .ldi  => ⟨3, .reg, .imm, none, .imm, .none, .none, .seq, false, false⟩
  | .prn  => ⟨2, .reg, .unused, none, .none, .none, .none, .seq, true, false⟩
  | .mul  => ⟨3, .reg, .reg, some .mul, .alu, .none, .none, .seq, false, false⟩
  | .add  => ⟨3, .reg, .reg, some .add, .alu, .none, .none, .seq, false, false⟩
  | .push => ⟨2, .reg, .unused, none, .none, .writeReg, .dec, .seq, false, false⟩
  | .pop  => ⟨2, .reg, .unused, none, .mem, .read, .inc, .seq, false, false⟩
  | .call => ⟨2, .reg, .unused, none, .none, .writeRet, .dec, .target, false, false⟩
  | .ret  => ⟨1, .unused, .unused, none, .none, .read, .inc, .mem, false, false⟩

/-! ### Decoding -/

/-- Why a byte string starts with no instruction. -/
inductive DecodeError where
  /-- There is no opcode byte. -/
  | noBytes
  /-- The opcode byte equals none of the nine `OPCODES` values (R66). -/
  | unrecognizedOpcode (opcode : Byte)
  /-- The string ends before the instruction's last operand byte. -/
  | operandMissing (kind : Kind)
  deriving DecidableEq, Repr

/-- The mnemonic whose `OPCODES` byte is the whole opcode byte, if there is one (R66). In a map that R65 refuses, two
mnemonics may share a byte; the first in R64's order is taken [DESIGN CHOICE, log 9; safe: `boot` refuses such a map]. -/
def recognize (m : Opcodes) (opcode : Byte) : Option Kind :=
  allKinds.find? fun k => m.byteOf k == opcode

/-- The instruction of a mnemonic and the two candidate operand bytes; a byte its format lacks is ignored (R62, R70). -/
def assemble (k : Kind) (op1 op2 : Byte) : Instr :=
  match k with
  | .hlt  => .hlt
  | .ldi  => .ldi op1 op2
  | .prn  => .prn op1
  | .mul  => .mul op1 op2
  | .add  => .add op1 op2
  | .push => .push op1
  | .pop  => .pop op1
  | .call => .call op1
  | .ret  => .ret

/-- The instruction a byte string starts with, and the rest of the string. The length comes from the control table,
not from the opcode's bits [7:6] (R69). -/
def decode (m : Opcodes) (bytes : List Byte) : Except DecodeError (Instr × List Byte) :=
  match bytes with
  | [] => .error .noBytes
  | opcode :: rest =>
    match recognize m opcode with
    | none => .error (.unrecognizedOpcode opcode)
    | some k =>
      match (controls k).len, rest with
      | 1, rest => .ok (assemble k 0 0, rest)
      | 2, op1 :: rest => .ok (assemble k op1 0, rest)
      | 3, op1 :: op2 :: rest => .ok (assemble k op1 op2, rest)
      | _, _ => .error (.operandMissing k)

/-! ### The parts of an instruction, and the encoder -/

/-- An instruction's mnemonic. -/
def kindOf : Instr → Kind
  | .hlt => .hlt
  | .ldi _ _ => .ldi
  | .prn _ => .prn
  | .mul _ _ => .mul
  | .add _ _ => .add
  | .push _ => .push
  | .pop _ => .pop
  | .call _ => .call
  | .ret => .ret

/-- An instruction's operand bytes, in ascending address order (R62, spec/20_memory.md R44). -/
def operandsOf : Instr → List Byte
  | .hlt => []
  | .ldi reg imm => [reg, imm]
  | .prn reg => [reg]
  | .mul regA regB => [regA, regB]
  | .add regA regB => [regA, regB]
  | .push reg => [reg]
  | .pop reg => [reg]
  | .call reg => [reg]
  | .ret => []

/-- The first operand byte, `op1` of R12 (0 where the instruction has none; nothing then looks at it). -/
def op1Of (i : Instr) : Byte := (operandsOf i).headD 0

/-- The second operand byte, `op2` of R12 (0 where the instruction has none; nothing then looks at it). -/
def op2Of (i : Instr) : Byte := (operandsOf i).tail.headD 0

/-- The bytes of an instruction: the opcode byte, then its operand bytes (R60, R62). -/
def encode (m : Opcodes) (i : Instr) : List Byte := m.byteOf (kindOf i) :: operandsOf i

/-! ### The default map, and the table's words -/

/-- The default `OPCODES` map: R64's table, the LS-8 values, which the source does not state (G2)
[PRESUMED, log 1; unsafe where a statement rests on these bytes]. -/
def defaultOpcodes : Opcodes where
  hlt  := 0b00000001#8
  ldi  := 0b10000010#8
  prn  := 0b01000111#8
  mul  := 0b10100010#8
  add  := 0b10100000#8
  push := 0b01000101#8
  pop  := 0b01000110#8
  call := 0b01010000#8
  ret  := 0b00010001#8

/-- Byte `k` of a number, the first being bits 7 to 0: the numbering of spec/opcode_table.json. -/
def wordByte (w k : Nat) : Byte := BitVec.ofNat 8 (w / 2 ^ (8 * k))

/-- The three bytes of an instruction whose bits are `w`: every bit from `nbits` on is 0. -/
def tableBytes (nbits w : Nat) : List Byte :=
  [wordByte (w % 2 ^ nbits) 0, wordByte (w % 2 ^ nbits) 1, wordByte (w % 2 ^ nbits) 2]

/-- The instruction the decoder reads, under the default map, from a word of spec/opcode_table.json. -/
def decodeTableWord (nbits w : Nat) : Option Instr :=
  match decode defaultOpcodes (tableBytes nbits w) with
  | .ok (i, _) => some i
  | .error _ => none

end Sys2Proof
end

