-- ==== Sys2Proof/Machine/Defaults.lean ====
section
/-!
DEFINITION. The defaults of the four parameters (spec/00_scope.md R10), which `State.reset` takes.
-/

namespace Sys2Proof.Machine

/-- The default of each parameter, as R10's table gives it: `SP_INIT` 0xF4 [PRESUMED, log 2, unsafe], `OPCODES` the
LS-8 bytes [PRESUMED, log 1, unsafe], `ADD_B_SELECT` = REG_A [DEDUCED, log 3, unsafe], `TRACE_ENABLE` false [log 4]. -/
def defaultParams : Params where
  spInit := 0xF4#8
  opcodes := defaultOpcodes
  addBSelect := .regA
  traceEnable := false

end Sys2Proof.Machine
end

