-- ==== Sys2Proof/Machine/State.lean ====
section
/-!
DEFINITION. The state of the CORE as plain data (spec/10_state.md): the tuple PC, Memory, Registers, SP, STATUS, OUT, with
the machine's parameters beside it; the reasons a step can stop; and the state after reset.
-/

namespace Sys2Proof.Machine

/-- STATUS.RUN (R31). The fourth code, 3, "is never produced" and has no constructor (log 11). -/
inductive Run where
  | running | halted | faulted
  deriving DecidableEq, Repr

/-- STATUS.CAUSE (R31, spec/60_exceptions.md R140). `unsupportedAluOperation` is code 3, kept and never produced (R147). -/
inductive Cause where
  | none | unrecognizedOpcode | outOfBoundsAccess | unsupportedAluOperation
  deriving DecidableEq, Repr

/-- STATUS.OOB_KIND (R31, spec/60_exceptions.md R142). Code 7 "is never produced" and has no constructor (log 11). -/
inductive OobKind where
  | none | fetchPc | operandFetch | regIndex | spDecrement | spIncrement | returnAddress
  deriving DecidableEq, Repr

/-- The STATUS record (R31). Only the step writes it; no instruction can read it (R30). -/
structure Status where
  run : Run
  cause : Cause
  oobKind : OobKind
  faultPc : PcWord
  faultOpcode : Byte
  faultOpcodeValid : Bool
  deriving DecidableEq, Repr

/-- Memory as (address, byte) pairs, in canonical form: addresses strictly rising and below 256, no byte equal to what an
unlisted address reads as (`Memory.wf`, `unlistedByte` of Machine/Ops.lean). -/
abbrev Memory := List Host.Cell

/-- The machine's state. -/
structure State where
  /-- PC, 0 to 256 (R26). -/
  pc : PcWord
  /-- Memory, addresses 0 to 255 (R34). -/
  mem : Memory
  /-- R0 to R7 (R20). -/
  regs : Vector Byte 8
  /-- SP (R27). -/
  sp : Byte
  /-- STATUS (R31). -/
  status : Status
  /-- OUT, oldest byte first (R33). -/
  out : List Byte
  /-- The parameters of spec/00_scope.md R10: the model's own field, which no step writes [DESIGN CHOICE, log 5, safe]. -/
  params : Params
  deriving DecidableEq, Repr

/-- Why the machine has no step from a state. (A fault of the CORE itself, R146, is a NEXT state whose STATUS.RUN is FAULTED.) -/
inductive Fault where
  /-- STATUS.RUN is HALTED: "the CORE has no step" (R32, R80). `step` raises it. Safe: the machine stops (log 6). -/
  | noStepHalted
  /-- STATUS.RUN is FAULTED: "the CORE has no step" (R32, R80). `step` raises it. Safe: the machine stops (log 6). -/
  | noStepFaulted
  deriving DecidableEq, Repr

/-- Instructions the model gives no meaning. -/
inductive Refusal where
  /-- An instruction whose arm in Dispatch.lean has no meaning yet, by its mnemonic. `exec` would raise it; no arm does. Safe. -/
  | notModelled (mnemonic : String)
  deriving DecidableEq, Repr

/-- What an instruction or a step answers. -/
abbrev Result := Host.Outcome State Fault Refusal

/-- STATUS after reset: RUNNING, every other field 0 (R31, R37). -/
def Status.initial : Status where
  run := .running
  cause := .none
  oobKind := .none
  faultPc := 0
  faultOpcode := 0
  faultOpcodeValid := false

/-- The machine after reset with the given parameters and nothing loaded: steps 1 and 3 of
spec/70_reset_and_hazards.md R170, the table of R37. -/
def State.initial (p : Params) : State where
  pc := 0
  mem := []
  regs := Vector.replicate 8 0
  sp := p.spInit
  status := Status.initial
  out := []
  params := p

/-- The machine right after reset, with the default parameters (R10, R37) and nothing loaded. -/
def State.reset : State := State.initial defaultParams

end Sys2Proof.Machine
end

