-- ==== Sys2Proof/Machine/Ops.lean ====
section
/-!
DEFINITION. The named operations over the state: memory (spec/20_memory.md R43), registers (spec/10_state.md R24), the
setters of the other fields, and trap entry (spec/60_exceptions.md R146). There is no return from a trap (R149), so
none stands beside it.
-/

namespace Sys2Proof.Machine

/-! ### Memory -/

/-- What an unlisted address reads as: 0, the reset contents the spec gives (spec/10_state.md R37). -/
def unlistedByte : Byte := 0

/-- The byte listed at a cell's address, or `unlistedByte`. -/
def readCells : Memory → Nat → Byte
  | [], _ => unlistedByte
  | (k, w) :: rest, a => if k = a then w else readCells rest a

/-- A cell put in front of others, unless its byte is what an unlisted address reads as. -/
def consCell (a : Nat) (v : Byte) (rest : Memory) : Memory :=
  if v = unlistedByte then rest else (a, v) :: rest

/-- The cells after a byte is written: addresses stay rising, and a byte equal to `unlistedByte` is not listed. -/
def writeCells : Memory → Nat → Byte → Memory
  | [], a, v => consCell a v []
  | (k, w) :: rest, a, v =>
    if a < k then consCell a v ((k, w) :: rest)
    else if k = a then consCell a v rest
    else (k, w) :: writeCells rest a v

/-- `MemRead(addr, 1)` (R12, R43): the address is a byte, so it is always 0 to 255. -/
def Memory.read (m : Memory) (a : Byte) : Byte := readCells m a.toNat

/-- `MemWrite(addr, 1, v)` (R12, R43). -/
def Memory.write (m : Memory) (a v : Byte) : Memory := writeCells m a.toNat v

/-- Canonical form from a least address on: addresses strictly rising, below 256, no byte equal to `unlistedByte`. -/
def wfFrom : Nat → Memory → Bool
  | _, [] => true
  | lo, (k, w) :: rest => decide (lo ≤ k) && decide (k < 256) && decide (w ≠ unlistedByte) && wfFrom (k + 1) rest

/-- The memory is in canonical form: two memories in it that read alike are equal lists. -/
def Memory.wf (m : Memory) : Bool := wfFrom 0 m

/-- Bytes written from an address up, as the loader does (R170): byte `i` goes to `a + i`; nothing is written past 255. -/
def Memory.fill (m : Memory) (a : Nat) : List Byte → Memory
  | [] => m
  | b :: rest => Memory.fill (if a ≤ 255 then m.write (BitVec.ofNat 8 a) b else m) (a + 1) rest

/-- Read a byte of the state's memory. -/
def State.readMem (s : State) (a : Byte) : Byte := s.mem.read a

/-- Write a byte of the state's memory. -/
def State.writeMem (s : State) (a v : Byte) : State := { s with mem := s.mem.write a v }

/-! ### Registers -/

/-- `x[i]` (R12): the register a valid index byte names. Every index is checked before (R89), so the 0 for an index of 8 or
more is never read [DESIGN CHOICE, log 8, safe]. -/
def State.readReg (s : State) (r : Byte) : Byte := s.regs[r.toNat]?.getD 0

/-- `x[i] <- v` (R12). An index of 8 or more, which is never reached (R89), writes nothing [DESIGN CHOICE, log 8, safe]. -/
def State.writeReg (s : State) (r v : Byte) : State := { s with regs := s.regs.setIfInBounds r.toNat v }

/-! ### The other fields -/

/-- `pc <- target` (R12). -/
def State.setPc (s : State) (pc : PcWord) : State := { s with pc := pc }

/-- `sp <- v` (R12). -/
def State.setSp (s : State) (v : Byte) : State := { s with sp := v }

/-- `Emit(v)` (R12, R33): the byte goes to the end of OUT. -/
def State.emit (s : State) (v : Byte) : State := { s with out := s.out ++ [v] }

/-- `halt` (R12): RUN becomes HALTED; the other fields of STATUS stay (R100). -/
def State.halt (s : State) : State := { s with status := { s.status with run := .halted } }

/-! ### Trap entry -/

/-- Trap entry (R146): the six fields of STATUS and nothing else. `opcode` is the byte fetched, none when none was. -/
def State.takeTrap (s : State) (c : Cause) (k : OobKind) (opcode : Option Byte) : State :=
  { s with status :=
    { run := .faulted
      cause := c
      oobKind := k
      faultPc := s.pc
      faultOpcode := opcode.getD 0
      faultOpcodeValid := opcode.isSome } }

/-- Why the machine has no step, if it has none: "A step exists only when STATUS.RUN = RUNNING" (spec/40_cycle.md R80). -/
def State.noStep (s : State) : Option Fault :=
  match s.status.run with
  | .running => none
  | .halted => some .noStepHalted
  | .faulted => some .noStepFaulted

end Sys2Proof.Machine
end

