-- ==== Sys2Proof/Machine/Flags.lean ====
section
/-!
DEFINITION. The byte_alu (spec/42_alu.md R110, R111). The CORE has no flag and no condition code (spec/10_state.md R29): the
byte_alu "has no state and no flag outputs", so its result is all there is to compute here.
-/

namespace Sys2Proof.Machine

/-- The byte_alu's output `y`: the exact unsigned result reduced mod 256 (R110, R111). -/
def byteAlu (op : AluOp) (a b : Byte) : Byte :=
  match op with
  | .add => BitVec.ofNat 8 ((a.toNat + b.toNat) % 256)
  | .mul => BitVec.ofNat 8 ((a.toNat * b.toNat) % 256)

end Sys2Proof.Machine
end

