-- ==== Sys2Proof/Machine/Operands.lean ====
section
/-!
DEFINITION. The checks every instruction makes before it has an effect, in the step's order (spec/40_cycle.md R81, R83), and
the operands and addresses the meanings share.
-/

namespace Sys2Proof.Machine

/-- The operand byte is marked REG and names no register (R89). -/
def badRegIndex (role : OpRole) (op : Byte) : Bool := role == .reg && !validReg op

/-- Items 3 to 6 of R83 for an instruction at the state's pc: the kind of the first check that fails, if one does. -/
def firstOob (k : Kind) (op1 op2 : Byte) (s : State) : Option OobKind :=
  let d := controls k
  if d.len ≥ 2 ∧ s.pc.toNat + 1 > 255 then some .operandFetch
  else if d.len = 3 ∧ s.pc.toNat + 2 > 255 then some .operandFetch
  else if badRegIndex d.op1Role op1 then some .regIndex
  else if badRegIndex d.op2Role op2 then some .regIndex
  else if d.spOp = .dec ∧ s.sp = 0 then some .spDecrement
  else if d.spOp = .inc ∧ s.sp = 255 then some .spIncrement
  else if k = .call ∧ s.pc.toNat + 2 > 255 then some .returnAddress
  else none

/-- An instruction's opcode byte, as it stands at its address: decoding matched it with the map exactly (R66). -/
def opcodeByte (s : State) (i : Instr) : Byte := s.params.opcodes.byteOf (kindOf i)

/-- The step's shape after decode (R81, R82): the checks, then either trap entry with none of the instruction's writes,
or all of them together. `effect` is the state with every write made, each read taken from the state before. -/
def checked (i : Instr) (s : State) (effect : State) : Result :=
  match firstOob (kindOf i) (op1Of i) (op2Of i) s with
  | some kind => .next (s.takeTrap .outOfBoundsAccess kind (some (opcodeByte s i)))
  | none => .next effect

/-- pc + len, the pc_logic source SEQ (R84). -/
def seqPc (s : State) (len : Nat) : PcWord := s.pc + BitVec.ofNat 9 len

/-- The slot PUSH and CALL write: sp - 1 (R87). -/
def pushSlot (s : State) : Byte := s.sp - 1

/-- The byte CALL stores: `ret_addr[7:0]` with `ret_addr` = pc + 2 (R86, R87). -/
def returnByte (s : State) : Byte := (s.pc + 2).setWidth 8

/-- ADD's second operand, by `ADD_B_SELECT` (spec/42_alu.md R110, R113). -/
def addOperandB (s : State) (regA regB : Byte) : Byte :=
  match s.params.addBSelect with
  | .regA => s.readReg regA
  | .regB => s.readReg regB

end Sys2Proof.Machine
end

