-- ==== Sys2Proof/Machine/Arith.lean ====
section
/-!
DEFINITION. MUL and ADD (spec/42_alu.md).
-/

namespace Sys2Proof.Machine

/-- MUL reg_a, reg_b (R112). -/
def execMul (regA regB : Byte) (s : State) : Result :=
  checked (.mul regA regB) s
    ((s.writeReg regA (byteAlu .mul (s.readReg regA) (s.readReg regB))).setPc (seqPc s 3))

/-- ADD reg_a, reg_b (R113). Its result is stated only with `ADD_B_SELECT` named (N14, C2). -/
def execAdd (regA regB : Byte) (s : State) : Result :=
  checked (.add regA regB) s
    ((s.writeReg regA (byteAlu .add (s.readReg regA) (addOperandB s regA regB))).setPc (seqPc s 3))

end Sys2Proof.Machine
end

