-- ==== Sys2Proof/Machine/Basic.lean ====
section
/-!
DEFINITION. HLT, LDI and PRN (spec/41_basic.md).
-/

namespace Sys2Proof.Machine

/-- HLT (R100): RUN becomes HALTED and the pc still addresses the HLT byte. -/
def execHlt (s : State) : Result := checked .hlt s s.halt

/-- LDI reg, imm (R101). -/
def execLdi (reg imm : Byte) (s : State) : Result :=
  checked (.ldi reg imm) s ((s.writeReg reg imm).setPc (seqPc s 3))

/-- PRN reg (R102). -/
def execPrn (reg : Byte) (s : State) : Result :=
  checked (.prn reg) s ((s.emit (s.readReg reg)).setPc (seqPc s 2))

end Sys2Proof.Machine
end

