-- ==== Sys2Proof/Machine/Stack.lean ====
section
/-!
DEFINITION. PUSH and POP (spec/43_stack.md).
-/

namespace Sys2Proof.Machine

/-- PUSH reg (R120). -/
def execPush (reg : Byte) (s : State) : Result :=
  checked (.push reg) s
    (((s.writeMem (pushSlot s) (s.readReg reg)).setSp (pushSlot s)).setPc (seqPc s 2))

/-- POP reg (R121). -/
def execPop (reg : Byte) (s : State) : Result :=
  checked (.pop reg) s
    (((s.writeReg reg (s.readMem s.sp)).setSp (s.sp + 1)).setPc (seqPc s 2))

end Sys2Proof.Machine
end

