-- ==== Sys2Proof/Machine/Subroutine.lean ====
section
/-!
DEFINITION. CALL and RET (spec/44_subroutine.md).
-/

namespace Sys2Proof.Machine

/-- CALL reg (R130): the target is read before any write, and the length is not added to it. -/
def execCall (reg : Byte) (s : State) : Result :=
  checked (.call reg) s
    (((s.writeMem (pushSlot s) (returnByte s)).setSp (pushSlot s)).setPc (zext9 (s.readReg reg)))

/-- RET (R131). -/
def execRet (s : State) : Result :=
  checked .ret s ((s.setSp (s.sp + 1)).setPc (zext9 (s.readMem s.sp)))

end Sys2Proof.Machine
end

