-- ==== Sys2Proof/Machine/FetchUnit.lean ====
section
/-!
DEFINITION. The fetch_unit (spec/30_encoding.md R68), and the step up to and including decode (spec/40_cycle.md R81).
-/

namespace Sys2Proof.Machine

/-- The fetch_unit's outputs (R68). -/
structure FetchOut where
  pcOob : Bool
  opcode : Byte
  op1 : Byte
  op1Ok : Bool
  op2 : Byte
  op2Ok : Bool
  deriving DecidableEq, Repr

/-- A byte of memory at an address that may lie above 255, where the read gives 0 and does not fault (R68, D7). -/
def speculativeByte (m : Memory) (a : Nat) : Byte :=
  if a ≤ 255 then m.read (BitVec.ofNat 8 a) else 0

/-- The fetch_unit. R68 gives `pc_oob` for pc = 256; the values 257 to 511, which the machine never holds (R85), are
out of range too [DESIGN CHOICE, log 8, safe]. -/
def fetchUnit (m : Memory) (pc : PcWord) : FetchOut where
  pcOob := decide (pc.toNat > 255)
  opcode := speculativeByte m pc.toNat
  op1 := speculativeByte m (pc.toNat + 1)
  op1Ok := decide (pc.toNat + 1 ≤ 255)
  op2 := speculativeByte m (pc.toNat + 2)
  op2Ok := decide (pc.toNat + 2 ≤ 255)

/-- What fetch and decode come to: a trap taken before any instruction is known, or an instruction to execute. -/
inductive Fetched where
  | trapped (t : State)
  | instr (i : Instr)
  deriving DecidableEq, Repr

/-- R81 from the fetch to the decode: FETCH_PC, then UnrecognizedOpcode, then the instruction with the candidate
operand bytes, whose own checks come with its meaning (`checked`). -/
def fetchDecode (s : State) : Fetched :=
  let f := fetchUnit s.mem s.pc
  if f.pcOob then .trapped (s.takeTrap .outOfBoundsAccess .fetchPc none)
  else
    match recognize s.params.opcodes f.opcode with
    | none => .trapped (s.takeTrap .unrecognizedOpcode .none (some f.opcode))
    | some k => .instr (assemble k f.op1 f.op2)

/-- A state with bytes stored where its next instruction is fetched, from pc up (what lies past 255 is not stored). -/
def storeAtPc (s : State) (bytes : List Byte) : State := { s with mem := s.mem.fill s.pc.toNat bytes }

end Sys2Proof.Machine
end

