-- ==== Sys2Proof/Machine/Step.lean ====
section
/-!
DEFINITION. The step (spec/40_cycle.md R80, R81): no step unless RUNNING; fetch and decode; then the instruction.
-/

namespace Sys2Proof.Machine

/-- One step. It always answers a next state from a RUNNING state, and a fault from any other. -/
def step (s : State) : Host.Outcome State Fault Refusal :=
  match s.noStep with
  | some f => .fault f
  | none =>
    match fetchDecode s with
    | .trapped t => .next t
    | .instr i => exec i s

/-- The state with the instruction of an opcode-table word stored at its pc. On this hardware the program is loaded into
memory from outside before the first step (spec/70_reset_and_hazards.md R170, log 13), and this stands for that load. -/
def State.withFetchWord (s : State) (nbits w : Nat) : State := storeAtPc s (tableBytes nbits w)

end Sys2Proof.Machine
end

