-- ==== Sys2Proof/Machine/Datapath.lean ====
section
/-!
DEFINITION. The CORE's six blocks as the spec's signal tables give them (spec/10_state.md R24, spec/30_encoding.md R67, R68,
spec/40_cycle.md R86, R87, spec/42_alu.md R110), and the step they make when wired together. The step of R81 is
normative and the ports are "one implementation of it" (D19): that both are one step is a statement about this file.
The fetch_unit stands in FetchUnit.lean, the byte_alu in Flags.lean, the decoder's control table in Decode.lean.
-/

namespace Sys2Proof.Machine

/-! ### instruction_decoder (R67) -/

/-- The decoder's outputs. With `valid` false every other output is don't-care; it is then HLT's row, and nothing
looks at it [DESIGN CHOICE, log 10, safe]. -/
structure DecoderOut where
  valid : Bool
  kind : Kind
  ctl : Control
  deriving DecidableEq, Repr

def instructionDecoder (m : Opcodes) (opcode : Byte) : DecoderOut where
  valid := (recognize m opcode).isSome
  kind := (recognize m opcode).getD .hlt
  ctl := controls ((recognize m opcode).getD .hlt)

/-! ### The checks before the register file (R83 items 1 to 4, R89) -/

/-- What a fault signal carries: the cause, the kind, and the opcode byte recorded. -/
abbrev FaultSignal := Cause × OobKind × Option Byte

/-- The fault of items 1 to 4 of R83, from the fetch_unit and the decoder alone. -/
def operandFault (f : FetchOut) (d : DecoderOut) : Option FaultSignal :=
  if f.pcOob then some (.outOfBoundsAccess, .fetchPc, none)
  else if !d.valid then some (.unrecognizedOpcode, .none, some f.opcode)
  else if decide (d.ctl.len ≥ 2) && !f.op1Ok then some (.outOfBoundsAccess, .operandFetch, some f.opcode)
  else if decide (d.ctl.len = 3) && !f.op2Ok then some (.outOfBoundsAccess, .operandFetch, some f.opcode)
  else if badRegIndex d.ctl.op1Role f.op1 then some (.outOfBoundsAccess, .regIndex, some f.opcode)
  else if badRegIndex d.ctl.op2Role f.op2 then some (.outOfBoundsAccess, .regIndex, some f.opcode)
  else none

/-! ### register_file_8x8 (R24) -/

/-- The 3-bit index an operand byte gives the file. It is produced only when the checks have passed, the index check of R89
among them, and only from a byte the decoder marks REG; any other byte gives none and never reaches the file. -/
def regIndex (passed : Bool) (role : OpRole) (op : Byte) : Option (BitVec 3) :=
  if passed && role == .reg then some (op.setWidth 3) else none

/-- The file's index inputs: `a` is `ra_idx` and `w_idx` (both always op1), `b` is `rb_idx` (op2). None: not driven. -/
structure FilePorts where
  a : Option (BitVec 3)
  b : Option (BitVec 3)
  deriving DecidableEq, Repr

/-- The index inputs of a step, behind the checks. -/
def filePorts (f : FetchOut) (d : DecoderOut) : FilePorts where
  a := regIndex (operandFault f d).isNone d.ctl.op1Role f.op1
  b := regIndex (operandFault f d).isNone d.ctl.op2Role f.op2

/-- A read port: the value before the step. A port whose index is not driven gives 0, and nothing looks at it
[DESIGN CHOICE, log 10, safe]. -/
def regFileRead (regs : Vector Byte 8) (idx : Option (BitVec 3)) : Byte :=
  match idx with
  | some i => regs[i.toNat]
  | none => 0

/-- The write port, committed at the end of a step that does not raise. Without an index nothing is written. -/
def regFileWrite (regs : Vector Byte 8) (wEn : Bool) (wIdx : Option (BitVec 3)) (wData : Byte) : Vector Byte 8 :=
  match wEn, wIdx with
  | true, some i => regs.set i.toNat wData
  | _, _ => regs

/-! ### pc_logic (R84, R86) -/

/-- `pc_next`. -/
def pcLogicNext (pc : PcWord) (len : Nat) (pcSel : PcSel) (target memData : Byte) (fault : Bool) : PcWord :=
  if fault then pc
  else
    match pcSel with
    | .seq => pc + BitVec.ofNat 9 len
    | .target => zext9 target
    | .mem => zext9 memData
    | .hold => pc

/-- `ret_addr`: pc + 2. -/
def pcLogicRetAddr (pc : PcWord) : PcWord := pc + 2

/-- `ret_oob`: the return address is no address. -/
def pcLogicRetOob (pc : PcWord) : Bool := decide ((pcLogicRetAddr pc).toNat > 255)

/-! ### stack_pointer_routing (R87) -/

/-- The write-data select `wsel`. -/
inductive WriteSel where
  | reg | ret
  deriving DecidableEq, Repr

/-- The outputs of stack_pointer_routing. -/
structure StackOut where
  stackAddr : Byte
  memWe : Bool
  memWdata : Byte
  memRe : Bool
  memRdata : Byte
  spNext : Byte
  decOob : Bool
  incOob : Bool
  deriving DecidableEq, Repr

/-- Where R67's table asks for the return address the select is RET, and else REG (don't-care without a write)
[DESIGN CHOICE, log 10, safe]. -/
def writeSelOf : MemOp → WriteSel
  | .writeRet => .ret
  | .writeReg | .read | .none => .reg

/-- `stack_addr`. With `sp_op` NONE the table gives none; it is then sp, and nothing looks at it [DESIGN CHOICE, log 10, safe]. -/
def stackAddrOf (sp : Byte) (spOp : SpOp) : Byte :=
  match spOp with
  | .dec => sp - 1
  | .inc | .none => sp

def stackRouting (m : Memory) (sp : Byte) (spOp : SpOp) (wsel : WriteSel) (regData : Byte) (retAddr : PcWord) : StackOut where
  stackAddr := stackAddrOf sp spOp
  memWe := spOp == .dec
  memWdata := match wsel with
    | .reg => regData
    | .ret => retAddr.setWidth 8
  memRe := spOp == .inc
  memRdata := m.read (stackAddrOf sp spOp)
  spNext := match spOp with
    | .dec => sp - 1
    | .inc => sp + 1
    | .none => sp
  decOob := spOp == .dec && sp == 0
  incOob := spOp == .inc && sp == 255

/-! ### The blocks wired together -/

/-- The fault of items 5 and 6 of R83, from stack_pointer_routing and pc_logic. -/
def stackFault (f : FetchOut) (d : DecoderOut) (st : StackOut) (retOob : Bool) : Option FaultSignal :=
  if st.decOob then some (.outOfBoundsAccess, .spDecrement, some f.opcode)
  else if st.incOob then some (.outOfBoundsAccess, .spIncrement, some f.opcode)
  else if d.kind == .call && retOob then some (.outOfBoundsAccess, .returnAddress, some f.opcode)
  else none

/-- The fault the blocks' outputs report, if any, by R83's order. -/
def datapathFault (f : FetchOut) (d : DecoderOut) (st : StackOut) (retOob : Bool) : Option FaultSignal :=
  match operandFault f d with
  | some signal => some signal
  | none => stackFault f d st retOob

/-- The byte_alu's `b` input (R110). -/
def aluInputB (sel : AddBSelect) (op : Option AluOp) (portA portB : Byte) : Byte :=
  match op, sel with
  | some .add, .regA => portA
  | _, _ => portB

/-- The step of the wired blocks: every block reads the state before the step, and one commit at the end is gated by
the fault signal (R82). The register file is given an index only behind the checks of its operand bytes (R24, R89). -/
def datapathStep (s : State) : Result :=
  match s.noStep with
  | some f => .fault f
  | none =>
    let f := fetchUnit s.mem s.pc
    let d := instructionDecoder s.params.opcodes f.opcode
    let idx := filePorts f d
    let portA := regFileRead s.regs idx.a
    let portB := regFileRead s.regs idx.b
    let st := stackRouting s.mem s.sp d.ctl.spOp (writeSelOf d.ctl.mem) portA (pcLogicRetAddr s.pc)
    let raised := datapathFault f d st (pcLogicRetOob s.pc)
    let fault := raised.isSome
    let y := byteAlu (d.ctl.aluOp.getD .add) portA (aluInputB s.params.addBSelect d.ctl.aluOp portA portB)
    let wData := match d.ctl.regWrite with
      | .imm => f.op2
      | .alu => y
      | .mem => st.memRdata
      | .none => 0
    .next
      { pc := pcLogicNext s.pc d.ctl.len d.ctl.pcSel portA st.memRdata fault
        mem := if st.memWe && !fault then s.mem.write st.stackAddr st.memWdata else s.mem
        regs := regFileWrite s.regs (d.ctl.regWrite != .none && !fault) idx.a wData
        sp := if fault then s.sp else st.spNext
        status := match raised with
          | some (c, k, opcode) => (s.takeTrap c k opcode).status
          | none => if d.ctl.halt then s.halt.status else s.status
        out := if d.ctl.outEn && !fault then s.out ++ [portA] else s.out
        params := s.params }

end Sys2Proof.Machine
end

