-- ==== Sys2Proof/Machine/HostInterface.lean ====
section
/-!
DEFINITION. What the host sees and does (spec/70_reset_and_hazards.md, spec/60_exceptions.md R140, R142, R156, R158,
spec/40_cycle.md R90, R91, spec/30_encoding.md R72): load and reset, the run and its final observation, the codes of STATUS,
the lines of OUT, and the trace port. None of it is a move of the machine (R172).
-/

namespace Sys2Proof.Machine

/-! ### Loading and construction (R170, R172, R173) -/

/-- Why a machine is not started. The CORE never runs, and STATUS has no code for any of these (R148). The spec gives no order
among them: where several apply, `loadSource` and `boot` report the first of programNotFound, badLiteral, illFormedOpcodes,
imageTooLong [DESIGN CHOICE, log 17, safe]. -/
inductive LoadError where
  /-- "program source not found" (R73, R148). -/
  | programNotFound
  /-- A line that is neither blank, a comment, nor a binary literal of 1 to 8 digits (R72, N3). -/
  | badLiteral
  /-- More than 256 bytes (R173). -/
  | imageTooLong
  /-- The `OPCODES` map is not well-formed (R65). -/
  | illFormedOpcodes
  deriving DecidableEq, Repr

/-- Reset with the image loaded: steps 1 to 3 of R170, for any parameters a model accepts (R65) and an image of at most 256
bytes (R173). An ill-formed map is reported before an image that is too long: the spec orders neither [DESIGN CHOICE, log 17,
safe]. -/
def boot (p : Params) (image : List Byte) : Except LoadError State :=
  if p.opcodes.wellFormed = false then .error .illFormedOpcodes
  else if image.length > 256 then .error .imageTooLong
  else .ok { State.initial p with mem := Memory.fill [] 0 image }

/-- White space around a token [PRESUMED, log 16, unsafe]: space, tab, carriage return, vertical tab, form feed. -/
def isBlankChar (c : Char) : Bool :=
  c == ' ' || c == '\t' || c == '\r' || c.toNat == 11 || c.toNat == 12

/-- Surrounding white space removed. -/
def stripBlanks (cs : List Char) : List Char :=
  ((cs.dropWhile isBlankChar).reverse.dropWhile isBlankChar).reverse

/-- A character of a binary literal. -/
def isBinaryDigit (c : Char) : Bool := c == '0' || c == '1'

/-- The value of a string of binary digits. -/
def binaryValue (cs : List Char) : Nat := cs.foldl (fun n c => 2 * n + (if c = '1' then 1 else 0)) 0

/-- One line of program text (R72): the text before the first `#`, stripped; empty gives no byte, a binary literal of at
most 8 digits its value, anything else an error. -/
def parseLine (line : List Char) : Except LoadError (Option Byte) :=
  let token := stripBlanks (line.takeWhile (fun c => c != '#'))
  if token.isEmpty then .ok none
  else if token.all isBinaryDigit && decide (token.length ≤ 8) then .ok (some (BitVec.ofNat 8 (binaryValue token)))
  else .error .badLiteral

/-- The bytes of a list of lines, in file order (R72). -/
def parseLines : List (List Char) → Except LoadError (List Byte)
  | [] => .ok []
  | line :: rest =>
    match parseLine line, parseLines rest with
    | .ok none, .ok bytes => .ok bytes
    | .ok (some b), .ok bytes => .ok (b :: bytes)
    | .error e, _ => .error e
    | _, .error e => .error e

/-- `load(source)` (R172): the text of the source, or none when it is not found. A missing source is reported first, then a bad
line, then what `boot` reports: the spec gives no order [DESIGN CHOICE, log 17, safe]. -/
def loadSource (p : Params) (source : Option (List Char)) : Except LoadError State :=
  match source with
  | none => .error .programNotFound
  | some text =>
    match parseLines (text.splitOn '\n') with
    | .error e => .error e
    | .ok image => boot p image

/-! ### Running (R90, R91, R172) -/

/-- At most `k` steps; the run stays where it ends. -/
def runSteps : Nat → State → State
  | 0, s => s
  | k + 1, s =>
    match step s with
    | .next t => runSteps k t
    | .fault _ => s
    | .refused _ => s

/-- The final observation of a run the host lets go on for `k` steps: the whole state when the run has ended (R90), none
when it is still RUNNING, which is a run the host stopped (R91). -/
def finalObservation (k : Nat) (s : State) : Option State :=
  match (runSteps k s).status.run with
  | .running => none
  | .halted => some (runSteps k s)
  | .faulted => some (runSteps k s)

/-! ### The codes of STATUS (R31, R140, R142) -/

def runCode : Run → BitVec 2
  | .running => 0
  | .halted => 1
  | .faulted => 2

def causeCode : Cause → BitVec 2
  | .none => 0
  | .unrecognizedOpcode => 1
  | .outOfBoundsAccess => 2
  | .unsupportedAluOperation => 3

def oobKindCode : OobKind → BitVec 3
  | .none => 0
  | .fetchPc => 1
  | .operandFetch => 2
  | .regIndex => 3
  | .spDecrement => 4
  | .spIncrement => 5
  | .returnAddress => 6

/-! ### The output port and the trace port (R33, R102, R156, R158) -/

/-- The host's view of OUT: one decimal line for each byte, in execution order. -/
def outLines (s : State) : List (List Char) := s.out.map fun b => Nat.toDigits 10 b.toNat

/-- A trace record: pc, the three bytes at it (0 above 255), the registers. -/
structure TraceRecord where
  pc : PcWord
  bytes : Byte × Byte × Byte
  regs : Vector Byte 8
  deriving DecidableEq, Repr

/-- What the trace port presents at the start of the state's step (R158). -/
def traceRecord (s : State) : Option TraceRecord :=
  if s.params.traceEnable = true ∧ s.status.run = .running then
    let f := fetchUnit s.mem s.pc
    some { pc := s.pc, bytes := (f.opcode, f.op1, f.op2), regs := s.regs }
  else none

end Sys2Proof.Machine
end

