-- ==== Sys2Proof/Safety.lean ====
section
/-!
DEFINITION. What statements about the machine are stated with: which STATUS values are legal (spec/10_state.md R31), the
machine's invariant, when a next state is a trap, and instructions executed one after the other.
-/

namespace Sys2Proof.Machine

/-- The legal combinations of R31, with the codes that are "never produced" (U15) and what R142 and R146 record. -/
structure Status.Legal (st : Status) : Prop where
  /-- RUNNING or HALTED: no cause, no kind, the FAULT fields at their reset values. -/
  clear : st.run ≠ .faulted →
    st.cause = .none ∧ st.oobKind = .none ∧ st.faultPc = 0 ∧ st.faultOpcode = 0 ∧ st.faultOpcodeValid = false
  /-- FAULTED: a cause. -/
  caused : st.run = .faulted → st.cause ≠ .none
  /-- A kind if and only if the cause is OUT_OF_BOUNDS_ACCESS. -/
  kind : st.oobKind ≠ .none ↔ st.cause = .outOfBoundsAccess
  /-- CAUSE 3 is never produced (R147). -/
  noAlu : st.cause ≠ .unsupportedAluOperation
  /-- FAULT_OPCODE holds no fetched byte exactly for FETCH_PC and when not faulted. -/
  opcode : st.faultOpcodeValid = false ↔ st.run ≠ .faulted ∨ st.oobKind = .fetchPc
  /-- FAULT_OPCODE is 0 when none was fetched. -/
  noOpcode : st.faultOpcodeValid = false → st.faultOpcode = 0

/-- The machine's invariant: what R8, R65, R31, R146 say of every state a run can reach, and memory's canonical form. -/
structure State.Inv (s : State) : Prop where
  /-- PC holds 0 to 256 (R8, R26). -/
  pc : s.pc.toNat ≤ 256
  /-- Memory is in canonical form. -/
  mem : s.mem.wf = true
  /-- STATUS is a legal combination (R31). -/
  status : s.status.Legal
  /-- FAULTED: pc still addresses the faulting instruction (R146). -/
  faultPc : s.status.run = .faulted → s.status.faultPc = s.pc
  /-- The map `OPCODES` is one a model accepts (R65). -/
  opcodes : s.params.opcodes.wellFormed = true

/-- The state has taken a trap (R146). -/
def State.trapped (s : State) : Prop := s.status.run = .faulted

/-- Instructions executed one after the other, each as `exec` does it, while RUNNING; it says nothing of where they stand in
memory. -/
def execAll : List Instr → State → Result
  | [], s => .next s
  | i :: rest, s =>
    match s.noStep with
    | some f => .fault f
    | none =>
      match exec i s with
      | .next t => execAll rest t
      | .fault f => .fault f
      | .refused r => .refused r

/-- `t` is reached from `s` by instructions that complete one after the other, without a fault or a halt, and none of them
leaves SP above `bound`: what may run between a CALL and its RET (spec/44_subroutine.md R132, nested calls among it). -/
inductive CompletesWithin (bound : Byte) : State → State → Prop where
  | refl (s : State) : CompletesWithin bound s s
  | next {s t u : State} (i : Instr) (before : CompletesWithin bound s t) (executes : exec i t = .next u)
      (running : u.status.run = .running) (within : u.sp.toNat ≤ bound.toNat) : CompletesWithin bound s u

/-- The instructions of a list that take one from SP: its PUSHes and CALLs (spec/43_stack.md R123). -/
def decrements (is : List Instr) : Nat := is.countP fun i => kindOf i == .push || kindOf i == .call

/-! ### What an instruction names -/

/-- The bytes of memory from pc up to address 255, three at most: what a fetch can be made of (spec/30_encoding.md R68). -/
def bytesAtPc (s : State) : List Byte :=
  ((List.range 3).filter fun i => s.pc.toNat + i ≤ 255).map fun i => s.readMem (BitVec.ofNat 8 (s.pc.toNat + i))

/-- The register an instruction writes, the last column of R23 (spec/10_state.md). -/
def destReg : Instr → Option Byte
  | .ldi reg _ => some reg
  | .mul regA _ => some regA
  | .add regA _ => some regA
  | .pop reg => some reg
  | .hlt | .prn _ | .push _ | .call _ | .ret => none

/-- The registers an instruction reads, the second column of R23: ADD reads the second only when `ADD_B_SELECT` = REG_B. -/
def regReads (sel : AddBSelect) : Instr → List Byte
  | .prn reg => [reg]
  | .mul regA regB => [regA, regB]
  | .add regA regB => if sel = .regB then [regA, regB] else [regA]
  | .push reg => [reg]
  | .call reg => [reg]
  | .hlt | .ldi _ _ | .pop _ | .ret => []

/-- The address an instruction stores to, R42 (spec/20_memory.md): sp - 1 for PUSH and CALL, computed as their meanings do. -/
def storeSlot (i : Instr) (s : State) : Option Byte :=
  match i with
  | .push _ => some (pushSlot s)
  | .call _ => some (pushSlot s)
  | .hlt | .ldi _ _ | .prn _ | .mul _ _ | .add _ _ | .pop _ | .ret => none

/-- The address of an instruction's one data access, R42: sp - 1 for PUSH and CALL, sp for POP and RET. -/
def dataSlot (k : Kind) (s : State) : Option Byte :=
  match k with
  | .push | .call => some (s.sp - 1)
  | .pop | .ret => some s.sp
  | .hlt | .ldi | .prn | .mul | .add => none

/-- R84's table on numbers: the next pc of an instruction that does not fault. -/
def nextPcNat (i : Instr) (s : State) : Nat :=
  match i with
  | .hlt => s.pc.toNat
  | .ldi _ _ | .mul _ _ | .add _ _ => s.pc.toNat + 3
  | .prn _ | .push _ | .pop _ => s.pc.toNat + 2
  | .call reg => (s.readReg reg).toNat
  | .ret => (s.readMem s.sp).toNat

/-- R83's list, item by item, from the bytes of memory at pc: the first fault that applies to the step, if one does. -/
def listedFault (s : State) : Option (Cause × OobKind) :=
  let pc := s.pc.toNat
  let byte := fun i : Nat => s.readMem (BitVec.ofNat 8 (pc + i))
  if pc ≥ 256 then some (.outOfBoundsAccess, .fetchPc)
  else
    match recognize s.params.opcodes (byte 0) with
    | none => some (.unrecognizedOpcode, .none)
    | some k =>
      if pc + operandCount k > 255 then some (.outOfBoundsAccess, .operandFetch)
      else if k ∈ [Kind.ldi, .prn, .mul, .add, .push, .pop, .call] ∧ (byte 1).toNat ≥ 8 then some (.outOfBoundsAccess, .regIndex)
      else if k ∈ [Kind.mul, .add] ∧ (byte 2).toNat ≥ 8 then some (.outOfBoundsAccess, .regIndex)
      else if k ∈ [Kind.push, .call] ∧ s.sp = 0 then some (.outOfBoundsAccess, .spDecrement)
      else if k ∈ [Kind.pop, .ret] ∧ s.sp = 255 then some (.outOfBoundsAccess, .spIncrement)
      else if k = .call ∧ pc + 2 > 255 then some (.outOfBoundsAccess, .returnAddress)
      else none

end Sys2Proof.Machine
end

