-- ==== Sys2Proof/Certificates/Slice0/Obligations.lean ====
section
/-!
DEFINITION. The statements about the CORE, each from the numbered rules of spec/. They are over every parameter choice (the
parameters stand in State), over every state unless a premise says otherwise, and a premise that rules out states no run
reaches is part of `State.Inv`, which `StepKeepsInvariant` and `InvariantAtReset` state of the machine.
-/

open Sys2Proof Sys2Proof.Machine

/-! ### The step, decoding and encoding -/

/-- R81: when the bytes at pc decode to an instruction, the step of a RUNNING machine is that instruction's `exec`, and
nothing is added around it (no pc move of its own: each meaning sets pc). -/
def Obligations.StepRunsDecodedInstruction : Prop :=
  ∀ (s : State) (i : Instr) (rest : List Byte), s.status.run = .running →
    decode s.params.opcodes (bytesAtPc s) = .ok (i, rest) → step s = exec i s

/-- Words written out from 30_encoding.md's formats and default map decode to the instructions they stand for, and 247 byte
values are no opcode. The default map's byte values are PRESUMED (log 1), not the source's. -/
def Obligations.TableWordsDecode : Prop :=
  decode defaultOpcodes [0x01#8] = .ok (.hlt, []) ∧
  decode defaultOpcodes [0x82#8, 0x00#8, 0x08#8] = .ok (.ldi 0 8, []) ∧
  decode defaultOpcodes [0x47#8, 0x03#8, 0x55#8] = .ok (.prn 3, [0x55#8]) ∧
  decode defaultOpcodes [0xA2#8, 0x00#8, 0x01#8] = .ok (.mul 0 1, []) ∧
  decode defaultOpcodes [0xA0#8, 0x02#8, 0x07#8] = .ok (.add 2 7, []) ∧
  decode defaultOpcodes [0x45#8, 0x07#8] = .ok (.push 7, []) ∧
  decode defaultOpcodes [0x46#8, 0x07#8] = .ok (.pop 7, []) ∧
  decode defaultOpcodes [0x50#8, 0x01#8] = .ok (.call 1, []) ∧
  decode defaultOpcodes [0x11#8, 0x01#8] = .ok (.ret, [0x01#8]) ∧
  decode defaultOpcodes [0x00#8] = .error (.unrecognizedOpcode 0) ∧
  decode defaultOpcodes [0x82#8, 0x00#8] = .error (.operandMissing .ldi) ∧
  ((List.range 256).filter fun b => (recognize defaultOpcodes (BitVec.ofNat 8 b)).isNone).length = 247

/-- R62, R63, R66: for every well-formed map, an encoded instruction decodes to itself whatever follows it, every operand
byte at every value; and whatever decodes is the encoding of what it decodes to, so no other byte string is read as it. -/
def Obligations.DecodeInvertsEncode : Prop :=
  (∀ (m : Opcodes) (i : Instr) (rest : List Byte), m.wellFormed = true →
    decode m (encode m i ++ rest) = .ok (i, rest)) ∧
  (∀ (m : Opcodes) (bytes rest : List Byte) (i : Instr),
    decode m bytes = .ok (i, rest) → encode m i ++ rest = bytes)

/-- R69: the length from the control table agrees with the opcode byte's bits [7:6], for every well-formed map. -/
def Obligations.LengthAgreesWithCountBits : Prop :=
  ∀ (m : Opcodes) (i : Instr), m.wellFormed = true →
    (encode m i).length = (m.byteOf (kindOf i)).toNat / 64 + 1 ∧
    (controls (kindOf i)).len = (m.byteOf (kindOf i)).toNat / 64 + 1

/-- 30_encoding.md section 2, D18: a machine is built exactly from a map with nine distinct bytes whose bits [7:6] are the operand counts, and
an image of at most 256 bytes. -/
def Obligations.BootExactlyWhenWellFormed : Prop :=
  ∀ (p : Params) (image : List Byte),
    (∃ s, boot p image = .ok s) ↔
      (∀ k k', p.opcodes.byteOf k = p.opcodes.byteOf k' → k = k') ∧
      (∀ k, (p.opcodes.byteOf k).toNat / 64 = operandCount k) ∧
      image.length ≤ 256

/-- R68: the fetch_unit's outputs for every pc from 0 to 256. -/
def Obligations.FetchUnitReadsThreeBytes : Prop :=
  ∀ (m : Memory) (pc : PcWord), pc.toNat ≤ 256 →
    ((fetchUnit m pc).pcOob = true ↔ pc.toNat = 256) ∧
    (fetchUnit m pc).opcode = (if pc.toNat ≤ 255 then m.read (BitVec.ofNat 8 pc.toNat) else 0) ∧
    ((fetchUnit m pc).op1Ok = true ↔ pc.toNat + 1 ≤ 255) ∧
    (fetchUnit m pc).op1 = (if pc.toNat + 1 ≤ 255 then m.read (BitVec.ofNat 8 (pc.toNat + 1)) else 0) ∧
    ((fetchUnit m pc).op2Ok = true ↔ pc.toNat + 2 ≤ 255) ∧
    (fetchUnit m pc).op2 = (if pc.toNat + 2 ≤ 255 then m.read (BitVec.ofNat 8 (pc.toNat + 2)) else 0)

/-! ### Each instruction: encoding, result, faults -/

/-- R100: HLT completes in every state; only RUN changes, and the machine then has no step. -/
def Obligations.HltHalts : Prop :=
  ∀ s : State,
    encode s.params.opcodes .hlt = [s.params.opcodes.hlt] ∧
    ∃ t, exec .hlt s = .next t ∧
      t = { s with status := { s.status with run := .halted } } ∧
      ∀ u, step t ≠ .next u

/-- LDI's result, and its two faults (41_basic.md). That OPERAND_FETCH comes before REG_INDEX is the spec's decision D11 (log 12). -/
def Obligations.LdiLoadsImmediate : Prop :=
  ∀ (reg imm : Byte) (s : State),
    encode s.params.opcodes (.ldi reg imm) = [s.params.opcodes.ldi, reg, imm] ∧
    (s.pc.toNat ≤ 253 → reg.toNat ≤ 7 →
      ∃ t, exec (.ldi reg imm) s = .next t ∧ t = { s with regs := t.regs, pc := t.pc } ∧
        t.readReg reg = imm ∧ (∀ r, r ≠ reg → t.readReg r = s.readReg r) ∧ t.pc.toNat = s.pc.toNat + 3) ∧
    (254 ≤ s.pc.toNat →
      exec (.ldi reg imm) s = .next (s.takeTrap .outOfBoundsAccess .operandFetch (some s.params.opcodes.ldi))) ∧
    (s.pc.toNat ≤ 253 → 8 ≤ reg.toNat →
      exec (.ldi reg imm) s = .next (s.takeTrap .outOfBoundsAccess .regIndex (some s.params.opcodes.ldi)))

/-- PRN's result, and its two faults (41_basic.md). That the byte goes to OUT and the host prints it as a decimal line is the
spec's decision D15, that OPERAND_FETCH comes before REG_INDEX its decision D11 (log 12). -/
def Obligations.PrnEmitsRegister : Prop :=
  ∀ (reg : Byte) (s : State),
    encode s.params.opcodes (.prn reg) = [s.params.opcodes.prn, reg] ∧
    (s.pc.toNat ≤ 254 → reg.toNat ≤ 7 →
      ∃ t, exec (.prn reg) s = .next t ∧ t = { s with out := s.out ++ [s.readReg reg], pc := t.pc } ∧
        outLines t = outLines s ++ [Nat.toDigits 10 (s.readReg reg).toNat] ∧ t.pc.toNat = s.pc.toNat + 2) ∧
    (255 ≤ s.pc.toNat →
      exec (.prn reg) s = .next (s.takeTrap .outOfBoundsAccess .operandFetch (some s.params.opcodes.prn))) ∧
    (s.pc.toNat ≤ 254 → 8 ≤ reg.toNat →
      exec (.prn reg) s = .next (s.takeTrap .outOfBoundsAccess .regIndex (some s.params.opcodes.prn)))

/-- MUL's result mod 256, reg_a and reg_b equal or not, and its faults (42_alu.md). That OPERAND_FETCH comes before REG_INDEX is
the spec's decision D11 (log 12). -/
def Obligations.MulMultipliesModulo256 : Prop :=
  ∀ (regA regB : Byte) (s : State),
    encode s.params.opcodes (.mul regA regB) = [s.params.opcodes.mul, regA, regB] ∧
    (s.pc.toNat ≤ 253 → regA.toNat ≤ 7 → regB.toNat ≤ 7 →
      ∃ t, exec (.mul regA regB) s = .next t ∧ t = { s with regs := t.regs, pc := t.pc } ∧
        (t.readReg regA).toNat = (s.readReg regA).toNat * (s.readReg regB).toNat % 256 ∧
        (∀ r, r ≠ regA → t.readReg r = s.readReg r) ∧ t.pc.toNat = s.pc.toNat + 3) ∧
    (254 ≤ s.pc.toNat →
      exec (.mul regA regB) s = .next (s.takeTrap .outOfBoundsAccess .operandFetch (some s.params.opcodes.mul))) ∧
    (s.pc.toNat ≤ 253 → 8 ≤ regA.toNat ∨ 8 ≤ regB.toNat →
      exec (.mul regA regB) s = .next (s.takeTrap .outOfBoundsAccess .regIndex (some s.params.opcodes.mul)))

/-- ADD's result mod 256 under either `ADD_B_SELECT` (42_alu.md), and its faults. That the second operand is a parameter is the
spec's decision D4, that reg_b is checked under both settings its decision D8, the order of the faults its decision D11 (log 12). -/
def Obligations.AddAddsModulo256 : Prop :=
  ∀ (regA regB : Byte) (s : State),
    encode s.params.opcodes (.add regA regB) = [s.params.opcodes.add, regA, regB] ∧
    (s.pc.toNat ≤ 253 → regA.toNat ≤ 7 → regB.toNat ≤ 7 →
      ∃ t, exec (.add regA regB) s = .next t ∧ t = { s with regs := t.regs, pc := t.pc } ∧
        (s.params.addBSelect = .regA →
          (t.readReg regA).toNat = ((s.readReg regA).toNat + (s.readReg regA).toNat) % 256) ∧
        (s.params.addBSelect = .regB →
          (t.readReg regA).toNat = ((s.readReg regA).toNat + (s.readReg regB).toNat) % 256) ∧
        (∀ r, r ≠ regA → t.readReg r = s.readReg r) ∧ t.pc.toNat = s.pc.toNat + 3) ∧
    (254 ≤ s.pc.toNat →
      exec (.add regA regB) s = .next (s.takeTrap .outOfBoundsAccess .operandFetch (some s.params.opcodes.add))) ∧
    (s.pc.toNat ≤ 253 → 8 ≤ regA.toNat ∨ 8 ≤ regB.toNat →
      exec (.add regA regB) s = .next (s.takeTrap .outOfBoundsAccess .regIndex (some s.params.opcodes.add)))

/-- PUSH's result (the stored byte read back, every other byte as before) and its faults (43_stack.md), in the order of the
step's checks, which is the spec's decision D11 (log 12). The read back rests on memory's canonical form, part of `State.Inv`. -/
def Obligations.PushStoresBelowSp : Prop :=
  ∀ (reg : Byte) (s : State),
    encode s.params.opcodes (.push reg) = [s.params.opcodes.push, reg] ∧
    (s.pc.toNat ≤ 254 → reg.toNat ≤ 7 → s.sp ≠ 0 →
      ∃ t, exec (.push reg) s = .next t ∧ t = { s with mem := t.mem, sp := t.sp, pc := t.pc } ∧
        t.sp = pushSlot s ∧ t.sp.toNat + 1 = s.sp.toNat ∧
        (s.mem.wf = true → t.readMem (pushSlot s) = s.readReg reg) ∧
        (∀ a, a ≠ pushSlot s → t.readMem a = s.readMem a) ∧ t.pc.toNat = s.pc.toNat + 2) ∧
    (255 ≤ s.pc.toNat →
      exec (.push reg) s = .next (s.takeTrap .outOfBoundsAccess .operandFetch (some s.params.opcodes.push))) ∧
    (s.pc.toNat ≤ 254 → 8 ≤ reg.toNat →
      exec (.push reg) s = .next (s.takeTrap .outOfBoundsAccess .regIndex (some s.params.opcodes.push))) ∧
    (s.pc.toNat ≤ 254 → reg.toNat ≤ 7 → s.sp = 0 →
      exec (.push reg) s = .next (s.takeTrap .outOfBoundsAccess .spDecrement (some s.params.opcodes.push)))

/-- POP's result, memory unchanged, and its faults in the order of the step's checks (43_stack.md). That it faults at sp = 255 is the
spec's decision D9, the order of the checks its decision D11 (log 12). -/
def Obligations.PopLoadsFromSp : Prop :=
  ∀ (reg : Byte) (s : State),
    encode s.params.opcodes (.pop reg) = [s.params.opcodes.pop, reg] ∧
    (s.pc.toNat ≤ 254 → reg.toNat ≤ 7 → s.sp ≠ 255 →
      ∃ t, exec (.pop reg) s = .next t ∧ t = { s with regs := t.regs, sp := t.sp, pc := t.pc } ∧
        t.readReg reg = s.readMem s.sp ∧ (∀ r, r ≠ reg → t.readReg r = s.readReg r) ∧
        t.sp.toNat = s.sp.toNat + 1 ∧ t.pc.toNat = s.pc.toNat + 2) ∧
    (255 ≤ s.pc.toNat →
      exec (.pop reg) s = .next (s.takeTrap .outOfBoundsAccess .operandFetch (some s.params.opcodes.pop))) ∧
    (s.pc.toNat ≤ 254 → 8 ≤ reg.toNat →
      exec (.pop reg) s = .next (s.takeTrap .outOfBoundsAccess .regIndex (some s.params.opcodes.pop))) ∧
    (s.pc.toNat ≤ 254 → reg.toNat ≤ 7 → s.sp = 255 →
      exec (.pop reg) s = .next (s.takeTrap .outOfBoundsAccess .spIncrement (some s.params.opcodes.pop)))

/-- CALL's result (the return address pc + 2 stored, pc the register's value with no length added) and its faults in the order
of the step's checks (44_subroutine.md). That it faults at pc = 254 is the spec's decision D10, the order of the checks its
decision D11 (log 12). -/
def Obligations.CallStoresReturnAndJumps : Prop :=
  ∀ (reg : Byte) (s : State),
    encode s.params.opcodes (.call reg) = [s.params.opcodes.call, reg] ∧
    (s.pc.toNat ≤ 253 → reg.toNat ≤ 7 → s.sp ≠ 0 →
      ∃ t, exec (.call reg) s = .next t ∧ t = { s with mem := t.mem, sp := t.sp, pc := t.pc } ∧
        t.sp = pushSlot s ∧ t.sp.toNat + 1 = s.sp.toNat ∧
        (s.mem.wf = true → (t.readMem (pushSlot s)).toNat = s.pc.toNat + 2) ∧
        (∀ a, a ≠ pushSlot s → t.readMem a = s.readMem a) ∧ t.pc.toNat = (s.readReg reg).toNat) ∧
    (255 ≤ s.pc.toNat →
      exec (.call reg) s = .next (s.takeTrap .outOfBoundsAccess .operandFetch (some s.params.opcodes.call))) ∧
    (s.pc.toNat ≤ 254 → 8 ≤ reg.toNat →
      exec (.call reg) s = .next (s.takeTrap .outOfBoundsAccess .regIndex (some s.params.opcodes.call))) ∧
    (s.pc.toNat ≤ 254 → reg.toNat ≤ 7 → s.sp = 0 →
      exec (.call reg) s = .next (s.takeTrap .outOfBoundsAccess .spDecrement (some s.params.opcodes.call))) ∧
    (s.pc.toNat = 254 → reg.toNat ≤ 7 → s.sp ≠ 0 →
      exec (.call reg) s = .next (s.takeTrap .outOfBoundsAccess .returnAddress (some s.params.opcodes.call)))

/-- RET's result, memory and registers unchanged, and its one fault (44_subroutine.md), which is the spec's decision D9. -/
def Obligations.RetPopsPc : Prop :=
  ∀ s : State,
    encode s.params.opcodes .ret = [s.params.opcodes.ret] ∧
    (s.sp ≠ 255 →
      ∃ t, exec .ret s = .next t ∧ t = { s with sp := t.sp, pc := t.pc } ∧
        t.pc.toNat = (s.readMem s.sp).toNat ∧ t.sp.toNat = s.sp.toNat + 1) ∧
    (s.sp = 255 →
      exec .ret s = .next (s.takeTrap .outOfBoundsAccess .spIncrement (some s.params.opcodes.ret)))

/-- R111: both byte_alu operations are the exact integer result reduced mod 256. -/
def Obligations.ByteAluReducesModulo256 : Prop :=
  ∀ a b : Byte,
    (byteAlu .add a b).toNat = (a.toNat + b.toNat) % 256 ∧ (byteAlu .mul a b).toNat = a.toNat * b.toNat % 256

/-- With its bytes in range, an instruction with a register index of 8 or more takes REG_INDEX, and one whose indices are 0 to 7
never does (60_exceptions.md section 1). That ADD's reg_b is checked under REG_A is the spec's decision D8, that REG_INDEX comes
before the SP checks its decision D11 (log 12). -/
def Obligations.RegIndexTrapsExactlyWhenInvalid : Prop :=
  ∀ (i : Instr) (s : State), s.status.run = .running → s.Inv → s.pc.toNat + operandCount (kindOf i) ≤ 255 →
    (i.wellFormed = false →
      exec i s = .next (s.takeTrap .outOfBoundsAccess .regIndex (some (s.params.opcodes.byteOf (kindOf i))))) ∧
    (i.wellFormed = true → ∃ t, exec i s = .next t ∧ t.status.oobKind ≠ .regIndex)

/-! ### Frames: what an instruction reads and writes -/

/-- R23, R28, R33, R42: the frame of all nine instructions. A register other than the destination, a byte other than the one
stored to, SP but for the stack instructions, OUT but for PRN, STATUS but for HLT and a trap, and the parameters stay. -/
def Obligations.FrameOfEveryInstruction : Prop :=
  ∀ (i : Instr) (s t : State), exec i s = .next t →
    (∀ r, destReg i ≠ some r → t.readReg r = s.readReg r) ∧
    (∀ a, storeSlot i s ≠ some a → t.readMem a = s.readMem a) ∧
    (kindOf i ∉ [Kind.push, .pop, .call, .ret] → t.sp = s.sp) ∧
    (kindOf i ≠ .prn → t.out = s.out) ∧
    (kindOf i ≠ .hlt → ¬ t.trapped → t.status = s.status) ∧
    (¬ s.trapped → t.trapped → t = { s with status := t.status }) ∧
    t.params = s.params

/-- R23, R22: an instruction depends on no register but those R23 says it reads: another value in any other register (R7
among them) changes nothing but that register, and not even that where the instruction writes it. -/
def Obligations.UnreadRegistersDoNotMatter : Prop :=
  ∀ (i : Instr) (s : State) (r v : Byte), s.status.run = .running → r ∉ regReads s.params.addBSelect i →
    ∃ t, exec i s = .next t ∧
      exec i (s.writeReg r v) = .next (if destReg i = some r ∧ t.status.run ≠ .faulted then t else t.writeReg r v)

/-- R28: SP changes only by the decrement of PUSH and CALL and the increment of POP and RET, and no other instruction
depends on it. -/
def Obligations.SpMovesOnlyByStackInstructions : Prop :=
  (∀ (s t : State), step s = .next t →
    t.sp = s.sp ∨
    (∃ i rest, decode s.params.opcodes (bytesAtPc s) = .ok (i, rest) ∧
      ((kindOf i ∈ [Kind.push, .call] ∧ t.sp.toNat + 1 = s.sp.toNat) ∨
       (kindOf i ∈ [Kind.pop, .ret] ∧ t.sp.toNat = s.sp.toNat + 1)))) ∧
  (∀ (i : Instr) (s t : State) (v : Byte), kindOf i ∉ [Kind.push, .pop, .call, .ret] →
    exec i s = .next t → exec i (s.setSp v) = .next (t.setSp v))

/-- R33: OUT is empty at reset, grows only by PRN, by the register's byte at its end, and no step depends on it. -/
def Obligations.OutGrowsOnlyByPrn : Prop :=
  (∀ p : Params, (State.initial p).out = []) ∧
  (∀ (s t : State), step s = .next t →
    t.out = s.out ∨
    ∃ reg rest, decode s.params.opcodes (bytesAtPc s) = .ok (.prn reg, rest) ∧ t.out = s.out ++ [s.readReg reg]) ∧
  (∀ (s t : State) (o : List Byte), step s = .next t →
    step { s with out := o } = .next { t with out := o ++ t.out.drop s.out.length })

/-- R35, R70: a byte of memory outside the instruction's own bytes and its one data byte is not observed by the step: with
any other value there, the step is the same and the byte stays. -/
def Obligations.OtherMemoryBytesDoNotMatter : Prop :=
  ∀ (s : State) (k : Kind) (a v : Byte), s.status.run = .running → s.mem.wf = true → s.pc.toNat ≤ 255 →
    recognize s.params.opcodes (s.readMem (BitVec.ofNat 8 s.pc.toNat)) = some k →
    (a.toNat < s.pc.toNat ∨ s.pc.toNat + operandCount k < a.toNat) → dataSlot k s ≠ some a →
    ∃ t, step s = .next t ∧ step (s.writeMem a v) = .next (t.writeMem a v)

/-! ### Faults and the end of a run -/

/-- R80: a step exists exactly from RUNNING (none is refused or stops while RUNNING, none is left in HALTED or FAULTED), and it
is one instruction's: a trap, or the execution of the one instruction decoded at pc. -/
def Obligations.StepExistsExactlyWhenRunning : Prop :=
  ∀ s : State,
    ((∃ t, step s = .next t) ↔ s.status.run = .running) ∧
    ∀ t, step s = .next t →
      t.trapped ∨ ∃ i rest, decode s.params.opcodes (bytesAtPc s) = .ok (i, rest) ∧ exec i s = .next t

/-- The fault of a step is the first of 40_cycle.md's list (section 1) that applies, and with none of them the step completes.
The order is the spec's own decision D11. -/
def Obligations.FirstListedFaultIsRaised : Prop :=
  ∀ s : State, s.status.run = .running →
    (∀ c k, listedFault s = some (c, k) →
      step s = .next (s.takeTrap c k (if s.pc.toNat ≤ 255 then some (s.readMem (BitVec.ofNat 8 s.pc.toNat)) else none))) ∧
    (listedFault s = none → ∃ t, step s = .next t ∧ ¬ t.trapped)

/-- R146: a trap writes STATUS and nothing else, and STATUS says the cause, the kind, the faulting address and the byte
fetched there. -/
def Obligations.TrapWritesOnlyStatus : Prop :=
  ∀ s t : State, step s = .next t → t.trapped →
    t = { s with status := t.status } ∧
    t.status.cause ≠ .none ∧
    (t.status.oobKind ≠ .none ↔ t.status.cause = .outOfBoundsAccess) ∧
    t.status.faultPc = s.pc ∧
    (s.pc.toNat ≤ 255 → t.status.faultOpcodeValid = true ∧
      t.status.faultOpcode = s.readMem (BitVec.ofNat 8 s.pc.toNat)) ∧
    (256 ≤ s.pc.toNat → t.status.faultOpcodeValid = false ∧ t.status.faultOpcode = 0)

/-- R141: a byte equal to none of the nine `OPCODES` values raises UnrecognizedOpcode: it is recorded with its address, pc
stays at it, and nothing executes. -/
def Obligations.UnrecognizedOpcodeIsRecorded : Prop :=
  ∀ s : State, s.status.run = .running → s.pc.toNat ≤ 255 →
    (∀ k, s.params.opcodes.byteOf k ≠ s.readMem (BitVec.ofNat 8 s.pc.toNat)) →
    step s = .next { s with status :=
      { run := .faulted, cause := .unrecognizedOpcode, oobKind := .none, faultPc := s.pc,
        faultOpcode := s.readMem (BitVec.ofNat 8 s.pc.toNat), faultOpcodeValid := true } }

/-- R154: only HLT halts, and a run ends otherwise only by a fault of R83's list. -/
def Obligations.OnlyHltOrFaultEndsRun : Prop :=
  ∀ s t : State, step s = .next t →
    (t.status.run = .halted ↔ listedFault s = none ∧ ∃ rest, decode s.params.opcodes (bytesAtPc s) = .ok (.hlt, rest)) ∧
    (t.status.run = .faulted ↔ listedFault s ≠ none)

/-- R90, R91: a final observation is a state with no further step, the same however much longer the host waits; while there is
none the run is still RUNNING. -/
def Obligations.FinalObservationIsFinal : Prop :=
  ∀ (k : Nat) (s : State),
    (∀ t, finalObservation k s = some t →
      t.status.run ≠ .running ∧ (∀ u, step t ≠ .next u) ∧ ∀ j, k ≤ j → finalObservation j s = some t) ∧
    (finalObservation k s = none → (runSteps k s).status.run = .running ∧ ∃ u, step (runSteps k s) = .next u)

/-! ### The program counter -/

/-- R84: the next pc of a step is the table's when the instruction completes, and unchanged on a fault. -/
def Obligations.NextPcFollowsPcLogic : Prop :=
  ∀ s t : State, step s = .next t →
    (t.trapped → t.pc = s.pc) ∧
    (¬ t.trapped → ∃ i rest, decode s.params.opcodes (bytesAtPc s) = .ok (i, rest) ∧ t.pc.toNat = nextPcNat i s)

/-- The next pc of a step from pc 0 to 256 is 0 to 256; at 256 the step raises FETCH_PC whatever memory holds. That pc may be
256 is the spec's own decision D6. -/
def Obligations.NextPcStaysInRange : Prop :=
  ∀ s t : State, s.pc.toNat ≤ 256 → step s = .next t →
    t.pc.toNat ≤ 256 ∧ (s.pc.toNat = 256 → t = s.takeTrap .outOfBoundsAccess .fetchPc none)

/-! ### Memory -/

/-- R50: after any writes in order, a read gives the last byte written to its address, or what stood there before. -/
def Obligations.ReadGivesLastWrite : Prop :=
  ∀ (m : Memory) (writes : List (Byte × Byte)) (a : Byte), m.wf = true →
    (writes.foldl (fun m w => m.write w.1 w.2) m).read a =
      ((writes.reverse.find? fun w => w.1 == a).map (·.2)).getD (m.read a)

/-- A byte PUSH or CALL writes is what the next fetch finds there, as opcode or as operand (20_memory.md section 4; the spec's own
reading D14). -/
def Obligations.FetchSeesStackStore : Prop :=
  ∀ (i : Instr) (s t : State) (stored : Byte) (pc : PcWord), s.status.run = .running → s.mem.wf = true →
    exec i s = .next t → t.status.run = .running →
    (∃ reg, i = .push reg ∧ stored = s.readReg reg) ∨ (∃ reg, i = .call reg ∧ stored = returnByte s) →
    (pc.toNat = (pushSlot s).toNat → (fetchUnit t.mem pc).opcode = stored) ∧
    (pc.toNat + 1 = (pushSlot s).toNat → (fetchUnit t.mem pc).op1 = stored) ∧
    (pc.toNat + 2 = (pushSlot s).toNat → (fetchUnit t.mem pc).op2 = stored)

/-! ### Laws of the source -/

/-- R103: LDI followed by PRN on the same register prints the loaded value, for every byte. -/
def Obligations.LdiThenPrnPrintsImmediate : Prop :=
  ∀ (reg v : Byte) (s : State), reg.toNat ≤ 7 → s.pc.toNat ≤ 251 →
    ∃ t u, exec (.ldi reg v) s = .next t ∧ exec (.prn reg) t = .next u ∧ u.out = s.out ++ [v]

/-- R122: PUSH then POP into any register preserves the value and restores SP; N PUSHes followed, whatever happens to the
registers in between, by N POPs in reverse order restore the pushed registers and SP. -/
def Obligations.StackIsLastInFirstOut : Prop :=
  (∀ (regA regB : Byte) (s : State), regA.toNat ≤ 7 → regB.toNat ≤ 7 → s.mem.wf = true → s.sp ≠ 0 → s.pc.toNat ≤ 252 →
    ∃ t u, exec (.push regA) s = .next t ∧ exec (.pop regB) t = .next u ∧
      u.readReg regB = s.readReg regA ∧ u.sp = s.sp) ∧
  (∀ (regs : List Byte) (s : State), s.status.run = .running → s.mem.wf = true → (∀ r ∈ regs, r.toNat ≤ 7) →
    regs.length ≤ s.sp.toNat → s.pc.toNat + 2 * regs.length ≤ 256 →
    ∃ t, execAll (regs.map .push) s = .next t ∧
      ∀ u : State, u.status.run = .running → u.mem = t.mem → u.sp = t.sp → u.pc.toNat + 2 * regs.length ≤ 256 →
        ∃ v, execAll (regs.reverse.map .pop) u = .next v ∧ v.sp = s.sp ∧ ∀ r ∈ regs, v.readReg r = s.readReg r)

/-- RET resumes after the CALL it matches (44_subroutine.md): whatever instructions complete while SP does not rise above where
CALL left it, calls and returns nested to any depth among them, leave the return byte alone; when they leave SP as they found
it, RET resumes at the instruction after the CALL and restores SP. So does a RET in any other state with CALL's SP and that
byte. -/
def Obligations.RetResumesAfterCall : Prop :=
  ∀ (reg : Byte) (s : State), reg.toNat ≤ 7 → s.mem.wf = true → s.sp ≠ 0 → s.pc.toNat ≤ 253 →
    ∃ t, exec (.call reg) s = .next t ∧
      (∀ u : State, CompletesWithin t.sp t u → u.readMem t.sp = t.readMem t.sp) ∧
      (∀ u : State, u.sp = t.sp → CompletesWithin t.sp t u ∨ u.readMem t.sp = t.readMem t.sp →
        ∃ v, exec .ret u = .next v ∧ v.pc.toNat = s.pc.toNat + 2 ∧ v.sp = s.sp)

/-- In any sequence of instructions without POP and RET, each PUSH and CALL that completes takes one from SP and nothing else
changes SP, so SP's value bounds their number (43_stack.md); at 0 the next one raises SP_DECREMENT, which the spec's decision
D11 (log 12) puts before RETURN_ADDRESS. -/
def Obligations.StackCapacityIsSp : Prop :=
  (∀ (is : List Instr) (s t : State), (∀ i ∈ is, kindOf i ∉ [Kind.pop, .ret]) →
    execAll is s = .next t → ¬ t.trapped → t.sp.toNat + decrements is = s.sp.toNat) ∧
  (∀ (i : Instr) (s : State), kindOf i ∈ [Kind.push, .call] → i.wellFormed = true → s.pc.toNat ≤ 254 → s.sp = 0 →
    exec i s = .next (s.takeTrap .outOfBoundsAccess .spDecrement (some (s.params.opcodes.byteOf (kindOf i)))))

/-! ### Reset and load -/

/-- 10_state.md section 7 (STATUS, OUT and SP_INIT are the spec's decisions D12, D15, D2): the state after reset and load, for every parameter choice and image a machine is built from. -/
def Obligations.BootStateIsSpecified : Prop :=
  ∀ (p : Params) (image : List Byte) (s : State), boot p image = .ok s →
    (∀ r, s.readReg r = 0) ∧ (∀ a : Byte, s.readMem a = (image[a.toNat]?).getD 0) ∧ s.pc = 0 ∧ s.sp = p.spInit ∧
    s.status = { run := .running, cause := .none, oobKind := .none, faultPc := 0, faultOpcode := 0, faultOpcodeValid := false } ∧
    s.out = [] ∧ s.params = p

/-- The reset state with the default parameters and nothing loaded: SP = 0xF4 is the default of `SP_INIT` (PRESUMED, log 2), the
other parameters are the defaults of 00_scope.md section 3 (`OPCODES` PRESUMED, log 1; `ADD_B_SELECT` log 3; `TRACE_ENABLE`
log 4). The STATUS record is the spec's decision D12. -/
def Obligations.ResetStateHasDefaults : Prop :=
  State.reset.pc = 0 ∧ State.reset.sp = 0xF4#8 ∧ (∀ a : Byte, State.reset.readMem a = 0) ∧
  (∀ r : Byte, State.reset.readReg r = 0) ∧ State.reset.out = [] ∧
  State.reset.status =
    { run := .running, cause := .none, oobKind := .none, faultPc := 0, faultOpcode := 0, faultOpcodeValid := false } ∧
  State.reset.params.opcodes = defaultOpcodes ∧ State.reset.params.spInit = 0xF4#8 ∧
  State.reset.params.addBSelect = .regA ∧ State.reset.params.traceEnable = false

/-! ### Invariants, the blocks, the ports -/

/-- Every step keeps the invariant: pc 0 to 256 (R8), memory canonical, STATUS a legal combination (R31) with CAUSE 3 never
produced (R147), FAULT_PC the faulting pc (R146), a well-formed map (R65). -/
def Obligations.StepKeepsInvariant : Prop :=
  ∀ s t : State, s.Inv → step s = .next t → t.Inv

/-- The invariant holds at reset. -/
def Obligations.InvariantAtReset : Prop := State.reset.Inv

/-- The invariant holds of every machine that is built and loaded (R65, R170, R173). -/
def Obligations.InvariantAfterBoot : Prop :=
  ∀ (p : Params) (image : List Byte) (s : State), boot p image = .ok s → s.Inv

/-- R81 and the signal tables R24, R67, R68, R86, R87, R110: the six blocks wired together make the normative step. -/
def Obligations.DatapathMakesTheStep : Prop := ∀ s : State, datapathStep s = step s

/-- R24, R89 in the wired blocks: an index reaches the register file exactly when the instruction at pc, with all its bytes in
range and all its register indices 0 to 7, has a register there, and it is that register's number. So no byte of 8 or more and
no immediate reaches the file. The ports are the spec's decision D19, the check of ADD's reg_b under REG_A its decision D8, and
that an undriven port gives no index is the model's form (log 10). -/
def Obligations.OnlyCheckedIndicesReachFile : Prop :=
  ∀ (s : State) (idx : BitVec 3),
    let ports := filePorts (fetchUnit s.mem s.pc) (instructionDecoder s.params.opcodes (fetchUnit s.mem s.pc).opcode)
    (ports.a = some idx ↔ ∃ i rest, decode s.params.opcodes (bytesAtPc s) = .ok (i, rest) ∧ i.wellFormed = true ∧
      kindOf i ∈ [Kind.ldi, .prn, .mul, .add, .push, .pop, .call] ∧ (op1Of i).toNat = idx.toNat) ∧
    (ports.b = some idx ↔ ∃ i rest, decode s.params.opcodes (bytesAtPc s) = .ok (i, rest) ∧ i.wellFormed = true ∧
      kindOf i ∈ [Kind.mul, .add] ∧ (op2Of i).toNat = idx.toNat)

/-- R158: tracing has no effect on the step, and while RUNNING with `TRACE_ENABLE` true the record is pc, the three bytes at it
(0 above 255) and the registers; with it false there is none. -/
def Obligations.TraceHasNoEffect : Prop :=
  (∀ (s t : State) (b : Bool), step s = .next t →
    step { s with params := { s.params with traceEnable := b } } =
      .next { t with params := { t.params with traceEnable := b } }) ∧
  (∀ s : State, s.status.run = .running → s.params.traceEnable = true →
    traceRecord s = some
      { pc := s.pc
        bytes :=
          (if s.pc.toNat ≤ 255 then s.readMem (BitVec.ofNat 8 s.pc.toNat) else 0,
           if s.pc.toNat + 1 ≤ 255 then s.readMem (BitVec.ofNat 8 (s.pc.toNat + 1)) else 0,
           if s.pc.toNat + 2 ≤ 255 then s.readMem (BitVec.ofNat 8 (s.pc.toNat + 2)) else 0)
        regs := s.regs }) ∧
  (∀ s : State, s.params.traceEnable = false → traceRecord s = none)

/-- R72: a line of white space (log 16) around 1 to 8 binary digits, with or without a comment, gives the byte whose number the
digits write in base 2 (the last two clauses: no digits give 0, and each digit doubles and adds); a line with no token gives no
byte; any other token is a load error, and no machine is started from a text with such a line. -/
def Obligations.ProgramLineIsParsed : Prop :=
  (∀ before digits after comment : List Char, before.all isBlankChar = true → after.all isBlankChar = true →
    digits ≠ [] → digits.length ≤ 8 → (∀ c ∈ digits, c = '0' ∨ c = '1') →
    ∃ b : Byte, b.toNat = binaryValue digits ∧ parseLine (before ++ digits ++ after) = .ok (some b) ∧
      parseLine (before ++ digits ++ after ++ '#' :: comment) = .ok (some b)) ∧
  (∀ blank comment : List Char, blank.all isBlankChar = true →
    parseLine blank = .ok none ∧ parseLine (blank ++ '#' :: comment) = .ok none) ∧
  (∀ before token after comment : List Char, before.all isBlankChar = true → after.all isBlankChar = true →
    token ≠ [] → '#' ∉ token → (∀ c, token.head? = some c ∨ token.getLast? = some c → isBlankChar c = false) →
    ¬ (token.length ≤ 8 ∧ ∀ c ∈ token, c = '0' ∨ c = '1') →
    parseLine (before ++ token ++ after) = .error .badLiteral ∧
    parseLine (before ++ token ++ after ++ '#' :: comment) = .error .badLiteral) ∧
  (∀ (p : Params) (text line : List Char) (s : State), line ∈ text.splitOn '\n' → parseLine line = .error .badLiteral →
    loadSource p (some text) ≠ .ok s) ∧
  binaryValue [] = 0 ∧
  (∀ ds : List Char, binaryValue (ds ++ ['0']) = 2 * binaryValue ds ∧ binaryValue (ds ++ ['1']) = 2 * binaryValue ds + 1)
end

