-- ==== Sys2Proof/Laws/Decode.lean ====
section
/-!
SUPPORT. The decoder's match, said once: a recognized byte is its mnemonic's, and in a well-formed map each mnemonic's byte is
recognized as that mnemonic.
-/

namespace Sys2Proof

theorem mem_allKinds (k : Kind) : k ∈ allKinds := by cases k <;> decide

theorem byteOf_of_recognize {m : Opcodes} {b : Byte} {k : Kind} (h : recognize m b = some k) : m.byteOf k = b := by
  simpa using List.find?_some h

theorem recognize_eq_none {m : Opcodes} {b : Byte} : recognize m b = none ↔ ∀ k, m.byteOf k ≠ b := by
  rw [recognize, List.find?_eq_none]
  exact ⟨fun h k => by simpa using h k (mem_allKinds k), fun h k _ => by simpa using h k⟩

theorem byteOf_injective {m : Opcodes} (h : m.wellFormed = true) {k k' : Kind} (e : m.byteOf k = m.byteOf k') : k = k' := by
  simp only [Opcodes.wellFormed, Bool.and_eq_true, Opcodes.distinct, decide_eq_true_eq] at h
  exact List.inj_on_of_nodup_map h.1 (mem_allKinds k) (mem_allKinds k') e

theorem recognize_byteOf {m : Opcodes} (h : m.wellFormed = true) (k : Kind) : recognize m (m.byteOf k) = some k := by
  cases hr : recognize m (m.byteOf k) with
  | none => exact absurd rfl (recognize_eq_none.1 hr k)
  | some k' => rw [byteOf_injective h (byteOf_of_recognize hr)]

theorem kindOf_assemble (k : Kind) (x y : Byte) : kindOf (assemble k x y) = k := by cases k <;> rfl

end Sys2Proof
end

