-- ==== Sys2Proof/Laws/Datapath.lean ====
section
/-!
SUPPORT. When the datapath lets an operand byte through to the register file, said once.
-/

namespace Sys2Proof.Machine

/-- The checks of items 1 to 4 of R83 pass exactly when the bytes at pc are an instruction, all of them in memory, whose
register indices are valid. -/
theorem operandFault_eq_none {m : Opcodes} {mem : Memory} {pc : PcWord} :
    operandFault (fetchUnit mem pc) (instructionDecoder m (fetchUnit mem pc).opcode) = none ↔
      pc.toNat ≤ 255 ∧ ∃ k, recognize m (fetchUnit mem pc).opcode = some k ∧ pc.toNat + operandCount k ≤ 255 ∧
        (assemble k (fetchUnit mem pc).op1 (fetchUnit mem pc).op2).wellFormed = true := by
  have hpc : (fetchUnit mem pc).pcOob = decide (pc.toNat > 255) := rfl
  have h1 : (fetchUnit mem pc).op1Ok = decide (pc.toNat + 1 ≤ 255) := rfl
  have h2 : (fetchUnit mem pc).op2Ok = decide (pc.toNat + 2 ≤ 255) := rfl
  unfold operandFault instructionDecoder
  rw [hpc, h1, h2]
  generalize (fetchUnit mem pc).op1 = x
  generalize (fetchUnit mem pc).op2 = y
  cases recognize m (fetchUnit mem pc).opcode with
  | none => simp; split <;> simp
  | some k =>
    cases k <;> simp [controls, badRegIndex, operandCount, assemble, Instr.wellFormed] <;> grind

/-- An index reaches a port exactly when the checks have passed and the byte's role is REG, and it is the byte's low bits. -/
theorem regIndex_eq_some {passed : Bool} {role : OpRole} {op : Byte} {idx : BitVec 3} :
    regIndex passed role op = some idx ↔ passed = true ∧ role = .reg ∧ op.setWidth 3 = idx := by
  simp [regIndex, and_assoc]

/-- A valid register's index is its number. -/
theorem setWidth3_eq {op : Byte} {idx : BitVec 3} (h : op.toNat ≤ 7) : op.setWidth 3 = idx ↔ op.toNat = idx.toNat := by
  rw [← BitVec.toNat_inj]
  simp
  omega

end Sys2Proof.Machine
end

