-- ==== Sys2Proof/Laws/Memory.lean ====
section
/-!
SUPPORT. Memory: a write keeps the canonical form, a read after a write, and what canonical form is for (memories in it that
read alike are equal).
-/

namespace Sys2Proof.Machine

theorem wfFrom_cons {lo k : Nat} {w : Byte} {rest : Memory} :
    wfFrom lo ((k, w) :: rest) = true ↔ lo ≤ k ∧ k < 256 ∧ w ≠ unlistedByte ∧ wfFrom (k + 1) rest = true := by
  simp [wfFrom, and_assoc]

theorem wfFrom_mono {lo lo' : Nat} (h : lo' ≤ lo) {m : Memory} (hm : wfFrom lo m = true) : wfFrom lo' m = true := by
  cases m with
  | nil => rfl
  | cons c rest =>
    obtain ⟨k, w⟩ := c
    rw [wfFrom_cons] at hm ⊢
    exact ⟨by omega, hm.2⟩

theorem consCell_wfFrom {lo a : Nat} {v : Byte} {rest : Memory} (hlo : lo ≤ a) (ha : a < 256)
    (h : wfFrom (a + 1) rest = true) : wfFrom lo (consCell a v rest) = true := by
  unfold consCell
  split
  · exact wfFrom_mono (by omega) h
  · exact wfFrom_cons.2 ⟨hlo, ha, ‹_›, h⟩

theorem writeCells_wfFrom {a : Nat} {v : Byte} (ha : a < 256) :
    ∀ {lo : Nat} {m : Memory}, lo ≤ a → wfFrom lo m = true → wfFrom lo (writeCells m a v) = true
  | _, [], hlo, _ => consCell_wfFrom hlo ha rfl
  | lo, (k, w) :: rest, hlo, h => by
    obtain ⟨h1, h2, h3, h4⟩ := wfFrom_cons.1 h
    rw [writeCells]
    split
    · exact consCell_wfFrom hlo ha (wfFrom_cons.2 ⟨by omega, h2, h3, h4⟩)
    · split
      · subst_vars
        exact consCell_wfFrom hlo ha h4
      · exact wfFrom_cons.2 ⟨h1, h2, h3, writeCells_wfFrom ha (by omega) h4⟩

/-- Below its least address, a memory in canonical form lists nothing. -/
theorem readCells_below {a : Nat} : ∀ {lo : Nat} {m : Memory}, a < lo → wfFrom lo m = true → readCells m a = unlistedByte
  | _, [], _, _ => rfl
  | lo, (k, w) :: rest, hlt, h => by
    obtain ⟨h1, _, _, h4⟩ := wfFrom_cons.1 h
    rw [readCells, if_neg (by omega)]
    exact readCells_below (by omega) h4

theorem readCells_consCell {a b : Nat} {v : Byte} {rest : Memory} (h : readCells rest a = unlistedByte) :
    readCells (consCell a v rest) b = if b = a then v else readCells rest b := by
  unfold consCell
  split
  · split <;> simp_all
  · rw [readCells]
    by_cases hb : b = a
    · simp [hb]
    · rw [if_neg (fun e => hb e.symm), if_neg hb]

theorem readCells_writeCells {a b : Nat} {v : Byte} :
    ∀ {lo : Nat} {m : Memory}, wfFrom lo m = true → readCells (writeCells m a v) b = if b = a then v else readCells m b
  | _, [], _ => readCells_consCell rfl
  | lo, (k, w) :: rest, h => by
    obtain ⟨h1, h2, h3, h4⟩ := wfFrom_cons.1 h
    rw [writeCells]
    split
    · refine readCells_consCell ?_
      rw [readCells, if_neg (by omega)]
      exact readCells_below (by omega) h4
    · split
      · rename_i hk
        subst hk
        rw [readCells_consCell (readCells_below (Nat.lt_succ_self k) h4)]
        by_cases hb : b = k
        · simp [hb]
        · rw [if_neg hb, if_neg hb, readCells, if_neg (fun e => hb e.symm)]
      · rw [readCells, readCells, readCells_writeCells h4]
        by_cases hb : b = a
        · subst hb
          rw [if_pos rfl, if_pos rfl, if_neg ‹_›]
        · rw [if_neg hb, if_neg hb]

theorem readCells_consCell_ne {a b : Nat} {v : Byte} (hb : b ≠ a) (rest : Memory) :
    readCells (consCell a v rest) b = readCells rest b := by
  unfold consCell
  split
  · rfl
  · exact if_neg fun e => hb e.symm

/-- At every other address a write changes no read, whatever the memory. -/
theorem readCells_writeCells_ne {a b : Nat} {v : Byte} (hb : b ≠ a) :
    ∀ m : Memory, readCells (writeCells m a v) b = readCells m b
  | [] => readCells_consCell_ne hb []
  | (k, w) :: rest => by
    rw [writeCells]
    split
    · exact readCells_consCell_ne hb _
    · split
      · rename_i hk
        subst hk
        rw [readCells_consCell_ne hb, readCells, if_neg fun e => hb e.symm]
      · rw [readCells, readCells, readCells_writeCells_ne hb rest]

theorem eq_of_readCells : ∀ {lo : Nat} {m m' : Memory}, wfFrom lo m = true → wfFrom lo m' = true →
    (∀ a, lo ≤ a → a < 256 → readCells m a = readCells m' a) → m = m'
  | _, [], [], _, _, _ => rfl
  | _, [], (k, w) :: rest, _, h', e => by
    obtain ⟨h1, h2, h3, _⟩ := wfFrom_cons.1 h'
    have := e k h1 h2
    simp [readCells] at this
    exact absurd this.symm h3
  | _, (k, w) :: rest, [], h, _, e => by
    obtain ⟨h1, h2, h3, _⟩ := wfFrom_cons.1 h
    have := e k h1 h2
    simp [readCells] at this
    exact absurd this h3
  | lo, (k, w) :: rest, (k', w') :: rest', h, h', e => by
    obtain ⟨h1, h2, h3, h4⟩ := wfFrom_cons.1 h
    obtain ⟨h1', h2', h3', h4'⟩ := wfFrom_cons.1 h'
    have hk : k = k' := by
      rcases Nat.lt_trichotomy k k' with hlt | heq | hgt
      · have := e k h1 h2
        rw [readCells, if_pos rfl, readCells, if_neg (by omega), readCells_below (by omega) h4'] at this
        exact absurd this h3
      · exact heq
      · have := e k' h1' h2'
        rw [readCells, if_neg (by omega), readCells_below (by omega) h4, readCells, if_pos rfl] at this
        exact absurd this.symm h3'
    subst hk
    have hw : w = w' := by
      have := e k h1 h2
      simpa [readCells] using this
    subst hw
    have : rest = rest' := eq_of_readCells h4 h4' fun a ha ha' => by
      have := e a (by omega) ha'
      rwa [readCells, if_neg (by omega), readCells, if_neg (by omega)] at this
    rw [this]

/-! ### The operations on byte addresses -/

/-- A write keeps the canonical form. -/
theorem Memory.wf_write {m : Memory} (h : m.wf = true) (a v : Byte) : (m.write a v).wf = true :=
  writeCells_wfFrom a.isLt (Nat.zero_le _) h

/-- A read after a write, in a memory in canonical form. -/
theorem Memory.read_write {m : Memory} (h : m.wf = true) (a v b : Byte) :
    (m.write a v).read b = if b = a then v else m.read b := by
  unfold Memory.read Memory.write
  rw [readCells_writeCells h]
  simp [BitVec.toNat_inj]

/-- A write leaves every other address alone, whatever the memory. -/
theorem Memory.read_write_ne (m : Memory) {a b : Byte} (hb : b ≠ a) (v : Byte) : (m.write a v).read b = m.read b :=
  readCells_writeCells_ne (fun e => hb (BitVec.eq_of_toNat_eq e)) m

/-- Memories in canonical form that read alike are equal. -/
theorem Memory.ext_read {m m' : Memory} (h : m.wf = true) (h' : m'.wf = true) (e : ∀ a : Byte, m.read a = m'.read a) :
    m = m' := by
  refine eq_of_readCells h h' fun a _ ha => ?_
  have := e (BitVec.ofNat 8 a)
  simpa [Memory.read, Nat.mod_eq_of_lt ha] using this

/-- Filling from an address up keeps the canonical form. -/
theorem Memory.wf_fill : ∀ (bytes : List Byte) {m : Memory} (a : Nat), m.wf = true → (m.fill a bytes).wf = true
  | [], _, _, h => h
  | b :: rest, m, a, h => by
    rw [Memory.fill]
    refine Memory.wf_fill rest (a + 1) ?_
    split
    · exact Memory.wf_write h _ _
    · exact h

/-- The memory after reset is in canonical form. -/
theorem State.initial_mem_wf (p : Params) : (State.initial p).mem.wf = true := rfl

end Sys2Proof.Machine
end

