-- ==== Sys2Proof/Laws/State.lean ====
section
/-!
SUPPORT. One lemma per field per update of the state, each true by unfolding, so that no later proof unfolds a record
update. A field an update does not write is the field of the state before.
-/

namespace Sys2Proof.Machine

variable (s : State)

/-! ### writeMem -/

@[simp] theorem State.writeMem_pc (a v : Byte) : (s.writeMem a v).pc = s.pc := rfl
@[simp] theorem State.writeMem_mem (a v : Byte) : (s.writeMem a v).mem = s.mem.write a v := rfl
@[simp] theorem State.writeMem_regs (a v : Byte) : (s.writeMem a v).regs = s.regs := rfl
@[simp] theorem State.writeMem_sp (a v : Byte) : (s.writeMem a v).sp = s.sp := rfl
@[simp] theorem State.writeMem_status (a v : Byte) : (s.writeMem a v).status = s.status := rfl
@[simp] theorem State.writeMem_out (a v : Byte) : (s.writeMem a v).out = s.out := rfl
@[simp] theorem State.writeMem_params (a v : Byte) : (s.writeMem a v).params = s.params := rfl

/-! ### writeReg -/

@[simp] theorem State.writeReg_pc (r v : Byte) : (s.writeReg r v).pc = s.pc := rfl
@[simp] theorem State.writeReg_mem (r v : Byte) : (s.writeReg r v).mem = s.mem := rfl
@[simp] theorem State.writeReg_regs (r v : Byte) : (s.writeReg r v).regs = s.regs.setIfInBounds r.toNat v := rfl
@[simp] theorem State.writeReg_sp (r v : Byte) : (s.writeReg r v).sp = s.sp := rfl
@[simp] theorem State.writeReg_status (r v : Byte) : (s.writeReg r v).status = s.status := rfl
@[simp] theorem State.writeReg_out (r v : Byte) : (s.writeReg r v).out = s.out := rfl
@[simp] theorem State.writeReg_params (r v : Byte) : (s.writeReg r v).params = s.params := rfl

/-! ### setPc -/

@[simp] theorem State.setPc_pc (p : PcWord) : (s.setPc p).pc = p := rfl
@[simp] theorem State.setPc_mem (p : PcWord) : (s.setPc p).mem = s.mem := rfl
@[simp] theorem State.setPc_regs (p : PcWord) : (s.setPc p).regs = s.regs := rfl
@[simp] theorem State.setPc_sp (p : PcWord) : (s.setPc p).sp = s.sp := rfl
@[simp] theorem State.setPc_status (p : PcWord) : (s.setPc p).status = s.status := rfl
@[simp] theorem State.setPc_out (p : PcWord) : (s.setPc p).out = s.out := rfl
@[simp] theorem State.setPc_params (p : PcWord) : (s.setPc p).params = s.params := rfl

/-! ### setSp -/

@[simp] theorem State.setSp_pc (v : Byte) : (s.setSp v).pc = s.pc := rfl
@[simp] theorem State.setSp_mem (v : Byte) : (s.setSp v).mem = s.mem := rfl
@[simp] theorem State.setSp_regs (v : Byte) : (s.setSp v).regs = s.regs := rfl
@[simp] theorem State.setSp_sp (v : Byte) : (s.setSp v).sp = v := rfl
@[simp] theorem State.setSp_status (v : Byte) : (s.setSp v).status = s.status := rfl
@[simp] theorem State.setSp_out (v : Byte) : (s.setSp v).out = s.out := rfl
@[simp] theorem State.setSp_params (v : Byte) : (s.setSp v).params = s.params := rfl

/-! ### emit -/

@[simp] theorem State.emit_pc (v : Byte) : (s.emit v).pc = s.pc := rfl
@[simp] theorem State.emit_mem (v : Byte) : (s.emit v).mem = s.mem := rfl
@[simp] theorem State.emit_regs (v : Byte) : (s.emit v).regs = s.regs := rfl
@[simp] theorem State.emit_sp (v : Byte) : (s.emit v).sp = s.sp := rfl
@[simp] theorem State.emit_status (v : Byte) : (s.emit v).status = s.status := rfl
@[simp] theorem State.emit_out (v : Byte) : (s.emit v).out = s.out ++ [v] := rfl
@[simp] theorem State.emit_params (v : Byte) : (s.emit v).params = s.params := rfl

/-! ### halt -/

@[simp] theorem State.halt_pc : (s.halt).pc = s.pc := rfl
@[simp] theorem State.halt_mem : (s.halt).mem = s.mem := rfl
@[simp] theorem State.halt_regs : (s.halt).regs = s.regs := rfl
@[simp] theorem State.halt_sp : (s.halt).sp = s.sp := rfl
@[simp] theorem State.halt_status : (s.halt).status = { s.status with run := .halted } := rfl
@[simp] theorem State.halt_out : (s.halt).out = s.out := rfl
@[simp] theorem State.halt_params : (s.halt).params = s.params := rfl

/-! ### takeTrap -/

@[simp] theorem State.takeTrap_pc (c : Cause) (k : OobKind) (o : Option Byte) : (s.takeTrap c k o).pc = s.pc := rfl
@[simp] theorem State.takeTrap_mem (c : Cause) (k : OobKind) (o : Option Byte) : (s.takeTrap c k o).mem = s.mem := rfl
@[simp] theorem State.takeTrap_regs (c : Cause) (k : OobKind) (o : Option Byte) : (s.takeTrap c k o).regs = s.regs := rfl
@[simp] theorem State.takeTrap_sp (c : Cause) (k : OobKind) (o : Option Byte) : (s.takeTrap c k o).sp = s.sp := rfl
@[simp] theorem State.takeTrap_status (c : Cause) (k : OobKind) (o : Option Byte) : (s.takeTrap c k o).status = ⟨.faulted, c, k, s.pc, o.getD 0, o.isSome⟩ := rfl
@[simp] theorem State.takeTrap_out (c : Cause) (k : OobKind) (o : Option Byte) : (s.takeTrap c k o).out = s.out := rfl
@[simp] theorem State.takeTrap_params (c : Cause) (k : OobKind) (o : Option Byte) : (s.takeTrap c k o).params = s.params := rfl

/-! ### Reads after an update that does not write what they read -/

@[simp] theorem State.writeMem_readReg (a v : Byte) (x : Byte) : (s.writeMem a v).readReg x = s.readReg x := rfl
@[simp] theorem State.writeReg_readMem (r v : Byte) (x : Byte) : (s.writeReg r v).readMem x = s.readMem x := rfl
@[simp] theorem State.setPc_readReg (p : PcWord) (x : Byte) : (s.setPc p).readReg x = s.readReg x := rfl
@[simp] theorem State.setPc_readMem (p : PcWord) (x : Byte) : (s.setPc p).readMem x = s.readMem x := rfl
@[simp] theorem State.setSp_readReg (v : Byte) (x : Byte) : (s.setSp v).readReg x = s.readReg x := rfl
@[simp] theorem State.setSp_readMem (v : Byte) (x : Byte) : (s.setSp v).readMem x = s.readMem x := rfl
@[simp] theorem State.emit_readReg (v : Byte) (x : Byte) : (s.emit v).readReg x = s.readReg x := rfl
@[simp] theorem State.emit_readMem (v : Byte) (x : Byte) : (s.emit v).readMem x = s.readMem x := rfl
@[simp] theorem State.halt_readReg (x : Byte) : (s.halt).readReg x = s.readReg x := rfl
@[simp] theorem State.halt_readMem (x : Byte) : (s.halt).readMem x = s.readMem x := rfl
@[simp] theorem State.takeTrap_readReg (c : Cause) (k : OobKind) (o : Option Byte) (x : Byte) : (s.takeTrap c k o).readReg x = s.readReg x := rfl
@[simp] theorem State.takeTrap_readMem (c : Cause) (k : OobKind) (o : Option Byte) (x : Byte) : (s.takeTrap c k o).readMem x = s.readMem x := rfl

/-- Reading a register after one is written: the written value at the written index, if it is one of the eight. -/
theorem State.writeReg_readReg (r v x : Byte) :
    (s.writeReg r v).readReg x = if r = x ∧ r.toNat < 8 then v else s.readReg x := by
  unfold State.readReg State.writeReg
  by_cases h : r = x
  · subst h
    by_cases h8 : r.toNat < 8 <;> simp [h8]
  · have : r.toNat ≠ x.toNat := fun e => h (BitVec.eq_of_toNat_eq e)
    simp [h, this]

end Sys2Proof.Machine
end

