-- ==== Sys2Proof/Laws/Operands.lean ====
section
/-!
SUPPORT. What the shared checks and the instructions' common shape can do, said once: an instruction either takes one
out-of-bounds trap or makes its whole effect, and always answers a next state.
-/

namespace Sys2Proof.Machine

/-- The state an instruction leaves when no check stops it: each meaning's effect, gathered for case splits. -/
def effectOf (i : Instr) (s : State) : State :=
  match i with
  | .hlt => s.halt
  | .ldi reg imm => (s.writeReg reg imm).setPc (seqPc s 3)
  | .prn reg => (s.emit (s.readReg reg)).setPc (seqPc s 2)
  | .mul regA regB => (s.writeReg regA (byteAlu .mul (s.readReg regA) (s.readReg regB))).setPc (seqPc s 3)
  | .add regA regB => (s.writeReg regA (byteAlu .add (s.readReg regA) (addOperandB s regA regB))).setPc (seqPc s 3)
  | .push reg => ((s.writeMem (pushSlot s) (s.readReg reg)).setSp (pushSlot s)).setPc (seqPc s 2)
  | .pop reg => ((s.writeReg reg (s.readMem s.sp)).setSp (s.sp + 1)).setPc (seqPc s 2)
  | .call reg => ((s.writeMem (pushSlot s) (returnByte s)).setSp (pushSlot s)).setPc (zext9 (s.readReg reg))
  | .ret => (s.setSp (s.sp + 1)).setPc (zext9 (s.readMem s.sp))

/-- The out-of-bounds kind an instruction's checks report, if one fails. -/
def oobOf (i : Instr) (s : State) : Option OobKind := firstOob (kindOf i) (op1Of i) (op2Of i) s

/-- Every instruction has the one shape: checks, then a trap or its effect. -/
theorem exec_eq_checked (i : Instr) (s : State) : exec i s = checked i s (effectOf i s) := by
  cases i <;> rfl

/-- An instruction answers a next state: its trap when a check fails, its effect when none does. -/
theorem exec_eq (i : Instr) (s : State) :
    exec i s = .next (match oobOf i s with
      | some kind => s.takeTrap .outOfBoundsAccess kind (some (opcodeByte s i))
      | none => effectOf i s) := by
  rw [exec_eq_checked, checked, oobOf]
  split <;> simp [*]

/-- Everything a next state of an instruction can be. -/
theorem exec_cases {i : Instr} {s t : State} (h : exec i s = .next t) :
    (∃ kind, oobOf i s = some kind ∧ t = s.takeTrap .outOfBoundsAccess kind (some (opcodeByte s i))) ∨
    (oobOf i s = none ∧ t = effectOf i s) := by
  rw [exec_eq] at h
  cases hk : oobOf i s with
  | none => right; simp_all
  | some kind => left; refine ⟨kind, rfl, ?_⟩; simp_all

/-- The kinds the checks of one instruction can report: never NONE and never FETCH_PC, which the fetch reports. -/
theorem firstOob_ne {k : Kind} {op1 op2 : Byte} {s : State} {kind : OobKind} (h : firstOob k op1 op2 s = some kind) :
    kind ≠ .none ∧ kind ≠ .fetchPc := by
  unfold firstOob at h
  dsimp only at h
  repeat' split at h
  all_goals cases h
  all_goals exact ⟨by decide, by decide⟩

/-- The checks look at pc, SP and the operand bytes only. -/
theorem firstOob_congr {k : Kind} {op1 op2 : Byte} {s t : State} (hpc : s.pc = t.pc) (hsp : s.sp = t.sp) :
    firstOob k op1 op2 s = firstOob k op1 op2 t := by
  unfold firstOob
  rw [hpc, hsp]

/-- When no check stops an instruction: its operand bytes are in range (a one-byte instruction has none), its register
indices are valid, and SP and the return address stay in range. -/
theorem oobOf_eq_none {i : Instr} {s : State} :
    oobOf i s = none ↔
      (operandCount (kindOf i) = 0 ∨ s.pc.toNat + operandCount (kindOf i) ≤ 255) ∧ i.wellFormed = true ∧
      ((controls (kindOf i)).spOp = .dec → s.sp ≠ 0) ∧ ((controls (kindOf i)).spOp = .inc → s.sp ≠ 255) ∧
      (kindOf i = .call → s.pc.toNat + 2 ≤ 255) := by
  unfold oobOf firstOob
  cases i <;>
    simp only [kindOf, controls, op1Of, op2Of, operandsOf, badRegIndex, operandCount, Instr.wellFormed, List.headD,
      List.tail, reduceCtorEq, Bool.and_eq_true, Bool.not_eq_true'] <;>
    simp <;> try omega
  all_goals simp only [← Bool.not_eq_true]; grind

end Sys2Proof.Machine
end

