-- ==== Sys2Proof/Laws/PerInstr.lean ====
section
/-!
SUPPORT. The per-instruction family `EncodedLength`: an instruction's bytes are as many as its mnemonic's fixed length, 1 to 3
(spec/30_encoding.md R60), which is one more than the number of operand bytes R62 gives it.
-/

namespace Sys2Proof.Laws.EncodedLength

/-- The length of an instruction's bytes, for every map. -/
def Statement (i : Instr) : Prop :=
  ∀ m : Opcodes, (encode m i).length = (controls (kindOf i)).len ∧
    (encode m i).length = operandCount (kindOf i) + 1 ∧ (encode m i).length ≤ 3

theorem hlt : Statement .hlt := fun _ => ⟨rfl, rfl, Nat.le_of_ble_eq_true rfl⟩
theorem ldi (reg imm : Byte) : Statement (.ldi reg imm) := fun _ => ⟨rfl, rfl, Nat.le_of_ble_eq_true rfl⟩
theorem prn (reg : Byte) : Statement (.prn reg) := fun _ => ⟨rfl, rfl, Nat.le_of_ble_eq_true rfl⟩
theorem mul (regA regB : Byte) : Statement (.mul regA regB) := fun _ => ⟨rfl, rfl, Nat.le_of_ble_eq_true rfl⟩
theorem add (regA regB : Byte) : Statement (.add regA regB) := fun _ => ⟨rfl, rfl, Nat.le_of_ble_eq_true rfl⟩
theorem push (reg : Byte) : Statement (.push reg) := fun _ => ⟨rfl, rfl, Nat.le_of_ble_eq_true rfl⟩
theorem pop (reg : Byte) : Statement (.pop reg) := fun _ => ⟨rfl, rfl, Nat.le_of_ble_eq_true rfl⟩
theorem call (reg : Byte) : Statement (.call reg) := fun _ => ⟨rfl, rfl, Nat.le_of_ble_eq_true rfl⟩
theorem ret : Statement .ret := fun _ => ⟨rfl, rfl, Nat.le_of_ble_eq_true rfl⟩

end Sys2Proof.Laws.EncodedLength
end

