-- ==== Sys2Proof/Laws/Step.lean ====
section
/-!
SUPPORT. Everything a step can do, said once.
-/

namespace Sys2Proof.Machine

theorem noStep_eq_none {s : State} : s.noStep = none ↔ s.status.run = .running := by
  unfold State.noStep
  cases s.status.run <;> simp

/-- A RUNNING machine takes the step of R81. -/
theorem step_running {s : State} (h : s.status.run = .running) :
    step s = match fetchDecode s with
      | .trapped t => .next t
      | .instr i => exec i s := by
  cases hf : fetchDecode s <;> simp [step, noStep_eq_none.2 h, hf]

/-- What fetch and decode come to, by cases. -/
theorem fetchDecode_cases (s : State) :
    (255 < s.pc.toNat ∧ fetchDecode s = .trapped (s.takeTrap .outOfBoundsAccess .fetchPc none)) ∨
    (s.pc.toNat ≤ 255 ∧ recognize s.params.opcodes (fetchUnit s.mem s.pc).opcode = none ∧
      fetchDecode s = .trapped (s.takeTrap .unrecognizedOpcode .none (some (fetchUnit s.mem s.pc).opcode))) ∨
    (s.pc.toNat ≤ 255 ∧ ∃ k, recognize s.params.opcodes (fetchUnit s.mem s.pc).opcode = some k ∧
      fetchDecode s = .instr (assemble k (fetchUnit s.mem s.pc).op1 (fetchUnit s.mem s.pc).op2)) := by
  by_cases h : s.pc.toNat > 255
  · left; exact ⟨h, by simp [fetchDecode, fetchUnit, h]⟩
  · right
    have hoob : (fetchUnit s.mem s.pc).pcOob = false := by simp only [fetchUnit]; simpa using h
    cases hr : recognize s.params.opcodes (fetchUnit s.mem s.pc).opcode with
    | none => left; exact ⟨by omega, rfl, by simp [fetchDecode, hoob, hr]⟩
    | some k => right; exact ⟨by omega, k, rfl, by simp [fetchDecode, hoob, hr]⟩

/-- Everything a next state of a step can be. -/
theorem step_cases {s t : State} (h : step s = .next t) :
    s.status.run = .running ∧
    ((255 < s.pc.toNat ∧ t = s.takeTrap .outOfBoundsAccess .fetchPc none) ∨
     (s.pc.toNat ≤ 255 ∧ recognize s.params.opcodes (fetchUnit s.mem s.pc).opcode = none ∧
        t = s.takeTrap .unrecognizedOpcode .none (some (fetchUnit s.mem s.pc).opcode)) ∨
     (s.pc.toNat ≤ 255 ∧ ∃ k, recognize s.params.opcodes (fetchUnit s.mem s.pc).opcode = some k ∧
        exec (assemble k (fetchUnit s.mem s.pc).op1 (fetchUnit s.mem s.pc).op2) s = .next t)) := by
  have hr : s.status.run = .running := by
    rw [step] at h
    cases hn : s.noStep with
    | none => exact noStep_eq_none.1 hn
    | some f => simp [hn] at h
  refine ⟨hr, ?_⟩
  rw [step_running hr] at h
  rcases fetchDecode_cases s with ⟨h1, h2⟩ | ⟨h1, h2, h3⟩ | ⟨h1, k, h2, h3⟩
  · left; rw [h2] at h; exact ⟨h1, by simpa using h.symm⟩
  · right; left; rw [h3] at h; exact ⟨h1, h2, by simpa using h.symm⟩
  · right; right; rw [h3] at h; exact ⟨h1, k, h2, h⟩

end Sys2Proof.Machine
end

