-- ==== Sys2Proof/Tests/Slice0.lean ====
section
/-!
SUPPORT. Checks of the model against spec/95_test_vectors.md and the examples of the rules, one step each; and, for every
statement with hypotheses, states and operands that meet them together (the `witness_` theorems). Expected values are the
spec's, never the model's own.
-/

namespace Sys2Proof.Tests

open Sys2Proof Sys2Proof.Machine

/-! ### Helpers -/

/-- A small state: the reset state with pc and SP set, registers and memory bytes written, and bytes stored at pc. -/
def small (pc : PcWord) (sp : Byte) (regs mem : List (Byte × Byte)) (bytes : List Byte) : State :=
  storeAtPc (regs.foldl (fun s r => s.writeReg r.1 r.2)
    (mem.foldl (fun s c => s.writeMem c.1 c.2) { State.reset with pc := pc, sp := sp })) bytes

/-- The small state with `ADD_B_SELECT` = REG_B. -/
def addB (s : State) : State := { s with params := { s.params with addBSelect := .regB } }

/-- The step answers a next state for which the test holds. -/
def stepGives (s : State) (test : State → Bool) : Bool :=
  match step s with
  | .next t => test t
  | .fault _ => false
  | .refused _ => false

/-- The state is FAULTED with this cause, kind, pc, recorded opcode and valid bit, and pc still there. -/
def faultedAs (c : Cause) (k : OobKind) (pc : PcWord) (opcode : Byte) (valid : Bool) (t : State) : Bool :=
  t.status.run == .faulted && t.status.cause == c && t.status.oobKind == k && t.status.faultPc == pc &&
    t.status.faultOpcode == opcode && t.status.faultOpcodeValid == valid && t.pc == pc

/-! ### WellFormed refuses an ill-formed term for each check -/

theorem test_illFormed_ldi : (Instr.ldi 8 0).wellFormed = false := by decide
theorem test_illFormed_prn : (Instr.prn 255).wellFormed = false := by decide
theorem test_illFormed_mul_first : (Instr.mul 8 0).wellFormed = false := by decide
theorem test_illFormed_mul_second : (Instr.mul 0 8).wellFormed = false := by decide
theorem test_illFormed_add_first : (Instr.add 8 0).wellFormed = false := by decide
theorem test_illFormed_add_second : (Instr.add 0 8).wellFormed = false := by decide
theorem test_illFormed_push : (Instr.push 8).wellFormed = false := by decide
theorem test_illFormed_pop : (Instr.pop 9).wellFormed = false := by decide
theorem test_illFormed_call : (Instr.call 8).wellFormed = false := by decide
theorem test_immediate_never_checked : (Instr.ldi 7 255).wellFormed = true := by decide
theorem test_defaultOpcodes_wellFormed : defaultOpcodes.wellFormed = true := by decide
theorem test_illFormed_opcodes_shared : ({ defaultOpcodes with add := 0xA2#8 } : Opcodes).distinct = false := by decide
theorem test_illFormed_opcodes_count : ({ defaultOpcodes with ret := 0x51#8 } : Opcodes).countsAgree = false := by decide

/-! ### Decoding: words written out bit by bit from R62 and R64 -/

theorem test_decode_hlt : decode defaultOpcodes [0b00000001#8] = .ok (.hlt, []) := by rfl
theorem test_decode_ldi : decode defaultOpcodes [0b10000010#8, 0b00000101#8, 0b11111111#8] = .ok (.ldi 5 255, []) := by rfl
theorem test_decode_prn : decode defaultOpcodes [0b01000111#8, 0b00000011#8] = .ok (.prn 3, []) := by rfl
theorem test_decode_mul : decode defaultOpcodes [0b10100010#8, 0b00000010#8, 0b00000110#8] = .ok (.mul 2 6, []) := by rfl
theorem test_decode_add : decode defaultOpcodes [0b10100000#8, 0b00000001#8, 0b00000100#8] = .ok (.add 1 4, []) := by rfl
theorem test_decode_push : decode defaultOpcodes [0b01000101#8, 0b00000111#8] = .ok (.push 7, []) := by rfl
theorem test_decode_pop : decode defaultOpcodes [0b01000110#8, 0b00000111#8] = .ok (.pop 7, []) := by rfl
theorem test_decode_call : decode defaultOpcodes [0b01010000#8, 0b00000001#8] = .ok (.call 1, []) := by rfl
theorem test_decode_ret : decode defaultOpcodes [0b00010001#8, 0b00000000#8] = .ok (.ret, [0]) := by rfl

/-- Section 2.1's twelve unrecognized bytes. -/
theorem test_decode_unrecognized :
    [0x00#8, 0x02#8, 0x81#8, 0x83#8, 0xA1#8, 0xA3#8, 0x44#8, 0x48#8, 0x51#8, 0x10#8, 0x54#8, 0xFF#8].all
      (fun b => recognize defaultOpcodes b == none) = true := by decide

/-- An index of 8 or more decodes: the step, not the decoder, faults on it (R63). -/
theorem test_decode_keeps_whole_index : decode defaultOpcodes [0x47#8, 0xFF#8] = .ok (.prn 255, []) := by rfl
theorem test_encode_mul : encode defaultOpcodes (.mul 0 1) = [0xA2#8, 0x00#8, 0x01#8] := by rfl

/-- The host's word form: the second byte of LDI is bits 15 to 8, the third bits 23 to 16. -/
theorem test_decodeTableWord_ldi : decodeTableWord 24 0x080382 = some (.ldi 3 8) := by rfl
theorem test_decodeTableWord_masks : decodeTableWord 8 0xFF47 = some (.prn 0) := by rfl

/-! ### One step each, from section 2.4 and the rules' examples -/

/-- S1, and the example of R100: HLT at 255. -/
theorem test_hlt_at_255 : stepGives (small 255 0xF4 [] [] [0x01#8]) (fun t => t.status.run == .halted && t.pc == 255) = true := by decide
/-- S6. -/
theorem test_ldi_at_253 : stepGives (small 253 0xF4 [] [] [0x82#8, 0x03#8, 0x7F#8]) (fun t => t.readReg 3 == 0x7F && t.pc == 256) = true := by decide
/-- S8. -/
theorem test_ldi_bad_index : stepGives (small 0 0xF4 [] [] [0x82#8, 0x08#8, 0x01#8]) (faultedAs .outOfBoundsAccess .regIndex 0 0x82 true) = true := by decide
/-- S3. -/
theorem test_prn_at_254 : stepGives (small 254 0xF4 [(0, 200)] [] [0x47#8, 0x00#8]) (fun t => t.out == [200] && t.pc == 256) = true := by decide
/-- S5. -/
theorem test_prn_operand_missing : stepGives (small 255 0xF4 [] [] [0x47#8]) (faultedAs .outOfBoundsAccess .operandFetch 255 0x47 true) = true := by decide
/-- W2. -/
theorem test_mul_wraps : stepGives (small 0 0xF4 [(0, 200), (1, 100)] [] [0xA2#8, 0x00#8, 0x01#8]) (fun t => t.readReg 0 == 32 && t.pc == 3) = true := by decide
/-- S29: both inputs are the old value. -/
theorem test_mul_same_register : stepGives (small 0 0xF4 [(0, 3)] [] [0xA2#8, 0x00#8, 0x00#8]) (fun t => t.readReg 0 == 9) = true := by decide
/-- P6 and section 2.3, REG_A: 5 + 5. -/
theorem test_add_regA : stepGives (small 0 0xF4 [(0, 5), (1, 7)] [] [0xA0#8, 0x00#8, 0x01#8]) (fun t => t.readReg 0 == 10 && t.readReg 1 == 7) = true := by decide
/-- Section 2.3, REG_B: 200 + 100. -/
theorem test_add_regB : stepGives (addB (small 0 0xF4 [(0, 200), (1, 100)] [] [0xA0#8, 0x00#8, 0x01#8])) (fun t => t.readReg 0 == 44) = true := by decide
/-- S14. -/
theorem test_push_to_0 : stepGives (small 10 1 [(0, 0x2A)] [] [0x45#8, 0x00#8]) (fun t => t.readMem 0 == 0x2A && t.sp == 0 && t.pc == 12) = true := by decide
/-- S13: REG_INDEX before SP_DECREMENT. -/
theorem test_push_check_order : stepGives (small 0 0 [] [] [0x45#8, 0x09#8]) (faultedAs .outOfBoundsAccess .regIndex 0 0x45 true) = true := by decide
/-- S18: R7 is not SP. -/
theorem test_pop_r7 : stepGives (small 0 0xF3 [] [(0xF3, 0x55)] [0x46#8, 0x07#8]) (fun t => t.readReg 7 == 0x55 && t.sp == 0xF4) = true := by decide
/-- S15. -/
theorem test_pop_at_255 : stepGives (small 0 255 [] [] [0x46#8, 0x00#8]) (faultedAs .outOfBoundsAccess .spIncrement 0 0x46 true) = true := by decide
/-- S24. -/
theorem test_call_at_253 : stepGives (small 253 0xF4 [(1, 0x10)] [] [0x50#8, 0x01#8]) (fun t => t.readMem 0xF3 == 255 && t.sp == 0xF3 && t.pc == 0x10) = true := by decide
/-- S21. -/
theorem test_call_return_address : stepGives (small 254 0xF4 [(1, 0x10)] [] [0x50#8, 0x01#8]) (faultedAs .outOfBoundsAccess .returnAddress 254 0x50 true) = true := by decide
/-- S2. -/
theorem test_ret_at_255 : stepGives (small 255 0xF3 [] [(0xF3, 8)] [0x11#8]) (fun t => t.pc == 8 && t.sp == 0xF4) = true := by decide
/-- S17. -/
theorem test_ret_sp_255 : stepGives (small 0 255 [] [] [0x11#8]) (faultedAs .outOfBoundsAccess .spIncrement 0 0x11 true) = true := by decide
/-- S4. -/
theorem test_fetch_at_256 : stepGives (small 256 0xF4 [] [] []) (faultedAs .outOfBoundsAccess .fetchPc 256 0 false) = true := by decide
/-- S26: unrecognized before OPERAND_FETCH. -/
theorem test_unrecognized_at_255 : stepGives (small 255 0xF4 [] [] [0xA1#8]) (faultedAs .unrecognizedOpcode .none 255 0xA1 true) = true := by decide

/-- S30: no step once HALTED. -/
theorem test_no_step_halted : step State.reset.halt = .fault .noStepHalted := by rfl

/-- The instruction of a table word is the first after reset. -/
theorem test_withFetchWord : stepGives (State.reset.withFetchWord 8 0x82) (fun t => t.pc == 3) = true := by decide

/-! ### The blocks, the host's view -/

/-- Section 2.2's row for 254, with the byte at 255 set. -/
theorem test_fetchUnit_254 : fetchUnit [(255, 9)] 254 = ⟨false, 0, 9, true, 0, false⟩ := by decide

/-- The blocks make the step of S20. -/
theorem test_datapath_call : datapathStep (small 0 0xF4 [(7, 0x40)] [] [0x50#8, 0x07#8]) = step (small 0 0xF4 [(7, 0x40)] [] [0x50#8, 0x07#8]) := by rfl

/-- The file's index inputs for the bytes at address 0, under the default map. -/
def portsAt0 (bytes : List Byte) : FilePorts :=
  filePorts (fetchUnit (small 0 0xF4 [] [] bytes).mem 0) (instructionDecoder defaultOpcodes (fetchUnit (small 0 0xF4 [] [] bytes).mem 0).opcode)

/-- R24: LDI's immediate and PRN's absent second byte reach no port; a byte of 8 or more reaches none, nor does the valid byte
beside it (S8, S9). -/
theorem test_filePorts :
    portsAt0 [0xA2#8, 0x02#8, 0x07#8] = ⟨some 2, some 7⟩ ∧ portsAt0 [0x82#8, 0x03#8, 0x05#8] = ⟨some 3, none⟩ ∧
    portsAt0 [0x47#8, 0x06#8] = ⟨some 6, none⟩ ∧ portsAt0 [0x47#8, 0x09#8] = ⟨none, none⟩ ∧
    portsAt0 [0xA2#8, 0x02#8, 0x08#8] = ⟨none, none⟩ := by decide

/-- R140's and R142's codes. -/
theorem test_status_codes :
    [runCode .running, runCode .halted, runCode .faulted] = [0, 1, 2] ∧
    [causeCode .none, causeCode .unrecognizedOpcode, causeCode .outOfBoundsAccess, causeCode .unsupportedAluOperation] = [0, 1, 2, 3] ∧
    [oobKindCode .none, oobKindCode .fetchPc, oobKindCode .operandFetch, oobKindCode .regIndex, oobKindCode .spDecrement,
      oobKindCode .spIncrement, oobKindCode .returnAddress] = [0, 1, 2, 3, 4, 5, 6] := by decide

/-- R72's example, line by line. -/
theorem test_program_text :
    parseLines ["# LDI R0, 8".toList, "10000010".toList, "00000000".toList, "00001000   # immediate 8".toList, "".toList] =
      .ok [0x82#8, 0x00#8, 0x08#8] := by rfl
/-- Nine digits are no literal (R72, log 16). -/
theorem test_program_text_too_long : parseLine "100000101".toList = .error .badLiteral := by rfl

/-- R102: 0 prints as "0", 255 as "255". -/
theorem test_out_lines : outLines ((State.reset.emit 0).emit 255) = [['0'], ['2', '5', '5']] := by decide

/-- R158: the trace record at address 0, and none with tracing off. -/
theorem test_trace :
    (traceRecord { small 0 0xF4 [] [] [0x82#8, 0x00#8, 0x08#8] with params := { defaultParams with traceEnable := true } }).map (·.bytes)
      = some (0x82, 0x00, 0x08) ∧ traceRecord State.reset = none := by decide

/-- R173 and R65: no machine from 257 bytes, or from a map that is not well-formed. -/
theorem test_boot_refuses :
    boot defaultParams (List.replicate 257 0) = .error .imageTooLong ∧
    boot { defaultParams with opcodes := { defaultOpcodes with ret := 0x01#8 } } [] = .error .illFormedOpcodes :=
  ⟨by rw [boot, if_neg (by decide), if_pos (by rw [List.length_replicate]; decide)], rfl⟩

/-! ### Witnesses: each statement's hypotheses are met together, by clause -/

/-- A state that is not the reset state and meets the machine's invariant, for the statements that have it as a premise. -/
def busy : State := small 10 0x80 [(0, 5), (1, 7)] [(0x80, 3), (20, 0x11)] [0x45#8, 0x00#8]

theorem witness_Inv : busy.Inv :=
  ⟨by decide, by decide, by constructor <;> decide, by decide, by decide⟩

theorem witness_Inv_faulted : (busy.takeTrap .outOfBoundsAccess .regIndex (some 0x45#8)).Inv :=
  ⟨by decide, by decide, by constructor <;> decide, by decide, by decide⟩

theorem witness_StepRunsDecodedInstruction :
    busy.status.run = .running ∧ decode busy.params.opcodes (bytesAtPc busy) = .ok (.push 0, [0x00#8]) := ⟨rfl, rfl⟩

theorem witness_StepRunsDecodedInstruction_last_byte :
    decode defaultOpcodes (bytesAtPc (small 255 0xF4 [] [] [0x01#8])) = .ok (.hlt, []) := rfl

theorem witness_DecodeInvertsEncode :
    defaultOpcodes.wellFormed = true ∧ decode defaultOpcodes [0xA0#8, 0x00#8, 0x08#8, 0x01#8] = .ok (.add 0 8, [0x01#8]) :=
  ⟨by decide, rfl⟩

/-- Another well-formed map than the default. -/
theorem witness_LengthAgreesWithCountBits : ({ defaultOpcodes with hlt := 0x3F#8, call := 0x7F#8 } : Opcodes).wellFormed = true := by decide

theorem witness_FetchUnitReadsThreeBytes : (256#9).toNat ≤ 256 ∧ (0#9).toNat ≤ 256 := by decide

/-- Completion at the last pc and the last register; the first pc that faults; the first register that does. -/
theorem witness_LdiLoadsImmediate :
    (small 253 0xF4 [] [] []).pc.toNat ≤ 253 ∧ (7#8).toNat ≤ 7 ∧ 254 ≤ (small 254 0xF4 [] [] []).pc.toNat ∧ 8 ≤ (8#8).toNat := by decide

theorem witness_PrnEmitsRegister :
    (small 254 0xF4 [] [] []).pc.toNat ≤ 254 ∧ (7#8).toNat ≤ 7 ∧ 255 ≤ (small 255 0xF4 [] [] []).pc.toNat ∧ 8 ≤ (8#8).toNat := by decide

theorem witness_MulMultipliesModulo256 :
    (small 253 0xF4 [(0, 200)] [] []).pc.toNat ≤ 253 ∧ (0#8).toNat ≤ 7 ∧ (7#8).toNat ≤ 7 ∧
    254 ≤ (small 254 0xF4 [] [] []).pc.toNat ∧ (8 ≤ (0#8).toNat ∨ 8 ≤ (8#8).toNat) ∧ (8 ≤ (8#8).toNat ∨ 8 ≤ (0#8).toNat) := by decide

theorem witness_AddAddsModulo256 :
    (small 253 0xF4 [] [] []).params.addBSelect = .regA ∧ (addB (small 253 0xF4 [] [] [])).params.addBSelect = .regB ∧
    (addB (small 253 0xF4 [] [] [])).pc.toNat ≤ 253 ∧ 254 ≤ (small 255 0xF4 [] [] []).pc.toNat ∧ 8 ≤ (255#8).toNat := by decide

theorem witness_PushStoresBelowSp :
    (small 254 1 [] [] []).pc.toNat ≤ 254 ∧ (small 254 1 [] [] []).sp ≠ 0 ∧ (small 254 1 [] [] []).mem.wf = true ∧
    255 ≤ (small 255 1 [] [] []).pc.toNat ∧ (small 254 0 [] [] []).sp = 0 ∧ (7#8).toNat ≤ 7 ∧ 8 ≤ (8#8).toNat := by decide

theorem witness_PopLoadsFromSp :
    (small 254 254 [] [] []).pc.toNat ≤ 254 ∧ (small 254 254 [] [] []).sp ≠ 255 ∧
    255 ≤ (small 255 254 [] [] []).pc.toNat ∧ (small 254 255 [] [] []).sp = 255 ∧ (7#8).toNat ≤ 7 ∧ 8 ≤ (8#8).toNat := by decide

theorem witness_CallStoresReturnAndJumps :
    (small 253 1 [] [] []).pc.toNat ≤ 253 ∧ (small 253 1 [] [] []).sp ≠ 0 ∧ (small 253 1 [] [] []).mem.wf = true ∧
    255 ≤ (small 255 1 [] [] []).pc.toNat ∧ (small 254 0 [] [] []).sp = 0 ∧ (small 254 1 [] [] []).pc.toNat = 254 ∧
    (7#8).toNat ≤ 7 ∧ 8 ≤ (8#8).toNat := by decide

theorem witness_RetPopsPc : (small 0 254 [] [] []).sp ≠ 255 ∧ (small 0 255 [] [] []).sp = 255 := by decide

/-- `witness_Inv` gives the premise on the state; the operand bytes end at 255 at the latest. -/
theorem witness_RegIndexTrapsExactlyWhenInvalid :
    busy.status.run = .running ∧ busy.pc.toNat + operandCount (kindOf (.mul 0 8)) ≤ 255 ∧
    (Instr.mul 0 8).wellFormed = false ∧ (Instr.mul 0 7).wellFormed = true := by decide

theorem witness_FrameOfEveryInstruction :
    (∃ t, exec (.push 0) busy = .next t ∧ ¬ t.trapped) ∧ ∃ t, exec (.push 8) busy = .next t ∧ t.trapped ∧ ¬ busy.trapped :=
  ⟨⟨_, rfl, nofun⟩, ⟨_, rfl, rfl, nofun⟩⟩

theorem witness_FrameOfEveryInstruction_names :
    destReg (.ldi 3 1) ≠ some 2 ∧ storeSlot (.push 0) busy ≠ some 0x80 ∧ kindOf (.ldi 3 1) ∉ [Kind.push, .pop, .call, .ret] ∧
    kindOf (.ldi 3 1) ≠ .prn ∧ kindOf (.ldi 3 1) ≠ .hlt := by decide

/-- R7 is read by no instruction that does not name it; ADD reads its second register only under REG_B. -/
theorem witness_UnreadRegistersDoNotMatter :
    busy.status.run = .running ∧ 7 ∉ regReads .regA (.push 0) ∧ 1 ∉ regReads .regA (.add 0 1) ∧ 1 ∈ regReads .regB (.add 0 1) ∧
    3 ∉ regReads .regA (.ldi 3 1) := by decide

theorem witness_SpMovesOnlyByStackInstructions :
    (∃ t, step busy = .next t ∧ t.sp ≠ busy.sp) ∧ kindOf (.mul 0 1) ∉ [Kind.push, .pop, .call, .ret] ∧
    ∃ t, exec (.mul 0 1) busy = .next t :=
  ⟨⟨_, rfl, by decide⟩, by decide, ⟨_, rfl⟩⟩

theorem witness_OutGrowsOnlyByPrn : ∃ t, step (small 0 0xF4 [(2, 9)] [] [0x47#8, 0x02#8]) = .next t ∧ t.out = [9] := ⟨_, rfl, rfl⟩

/-- The byte after a two-byte instruction, and the byte just before it, are free to differ. -/
theorem witness_OtherMemoryBytesDoNotMatter :
    busy.status.run = .running ∧ busy.mem.wf = true ∧ busy.pc.toNat ≤ 255 ∧
    recognize busy.params.opcodes (busy.readMem (BitVec.ofNat 8 busy.pc.toNat)) = some .push ∧
    ((9#8).toNat < busy.pc.toNat ∨ busy.pc.toNat + operandCount .push < (9#8).toNat) ∧
    ((12#8).toNat < busy.pc.toNat ∨ busy.pc.toNat + operandCount .push < (12#8).toNat) ∧
    dataSlot .push busy ≠ some 9 ∧ dataSlot .push busy ≠ some 12 := by decide

/-- A step that faults for each item of the list, and one that does not. -/
theorem witness_FirstListedFaultIsRaised :
    listedFault (small 256 0xF4 [] [] []) = some (.outOfBoundsAccess, .fetchPc) ∧
    listedFault (small 7 0xF4 [] [] []) = some (.unrecognizedOpcode, .none) ∧
    listedFault (small 254 0xF4 [] [] [0x82#8, 0x03#8]) = some (.outOfBoundsAccess, .operandFetch) ∧
    listedFault (small 254 0xF4 [] [] [0x50#8, 0x09#8]) = some (.outOfBoundsAccess, .regIndex) ∧
    listedFault (small 254 0 [] [] [0x50#8, 0x01#8]) = some (.outOfBoundsAccess, .spDecrement) ∧
    listedFault (small 0 255 [] [] [0x11#8]) = some (.outOfBoundsAccess, .spIncrement) ∧
    listedFault (small 254 0xF4 [] [] [0x50#8, 0x01#8]) = some (.outOfBoundsAccess, .returnAddress) ∧
    listedFault busy = none ∧ busy.status.run = .running := by decide

theorem witness_TrapWritesOnlyStatus :
    (∃ t, step (small 0 0 [] [] [0x45#8, 0x00#8]) = .next t ∧ t.trapped) ∧
    ∃ t, step (small 256 0 [] [] []) = .next t ∧ t.trapped ∧ 256 ≤ (small 256 0 [] [] []).pc.toNat :=
  ⟨⟨_, rfl, rfl⟩, ⟨_, rfl, rfl, by decide⟩⟩

theorem witness_StepExistsExactlyWhenRunning : (∃ t, step busy = .next t) ∧ (small 4 0 [] [] []).halt.status.run ≠ .running :=
  ⟨⟨_, rfl⟩, by decide⟩

theorem witness_UnrecognizedOpcodeIsRecorded :
    (small 255 0xF4 [] [] [0x54#8]).status.run = .running ∧ (small 255 0xF4 [] [] [0x54#8]).pc.toNat ≤ 255 ∧
    ∀ k, (small 255 0xF4 [] [] [0x54#8]).params.opcodes.byteOf k ≠ (small 255 0xF4 [] [] [0x54#8]).readMem (BitVec.ofNat 8 255) := by
  refine ⟨rfl, by decide, fun k => ?_⟩
  cases k <;> decide

theorem witness_OnlyHltOrFaultEndsRun : ∃ t, step (small 4 0xF4 [] [] [0x01#8]) = .next t ∧ t.status.run = .halted := ⟨_, rfl, rfl⟩

theorem witness_FinalObservationIsFinal :
    (finalObservation 1 (small 4 0xF4 [] [] [0x01#8])).isSome = true ∧ finalObservation 0 busy = none := ⟨rfl, rfl⟩

theorem witness_NextPcFollowsPcLogic :
    (∃ t, step busy = .next t ∧ ¬ t.trapped) ∧ ∃ t, step (small 0 0 [] [] [0x45#8, 0x00#8]) = .next t ∧ t.trapped :=
  ⟨⟨_, rfl, nofun⟩, ⟨_, rfl, rfl⟩⟩

/-- From 253 a three-byte instruction reaches 256, where the next step has its own clause. -/
theorem witness_NextPcStaysInRange :
    (∃ t, step (small 253 0xF4 [] [] [0x82#8, 0x03#8, 0x7F#8]) = .next t ∧ t.pc.toNat = 256) ∧
    ∃ t, step (small 256 0xF4 [] [] []) = .next t ∧ (small 256 0xF4 [] [] []).pc.toNat = 256 :=
  ⟨⟨_, rfl, rfl⟩, ⟨_, rfl, rfl⟩⟩

theorem witness_ReadGivesLastWrite : busy.mem.wf = true ∧ busy.mem ≠ [] := by decide

/-- A PUSH into the operand byte of the next instruction, and one into its opcode byte; a CALL. -/
theorem witness_FetchSeesStackStore :
    (∃ t, exec (.push 0) busy = .next t ∧ t.status.run = .running) ∧ (∃ t, exec (.call 0) busy = .next t ∧ t.status.run = .running) ∧
    busy.status.run = .running ∧ busy.mem.wf = true ∧
    (0x7F#9).toNat = (pushSlot busy).toNat ∧ (0x7E#9).toNat + 1 = (pushSlot busy).toNat ∧ (0x7D#9).toNat + 2 = (pushSlot busy).toNat :=
  ⟨⟨_, rfl, rfl⟩, ⟨_, rfl, rfl⟩, rfl, by decide, by decide, by decide, by decide⟩

theorem witness_LdiThenPrnPrintsImmediate : (7#8).toNat ≤ 7 ∧ (small 251 0xF4 [] [] []).pc.toNat ≤ 251 := by decide

/-- Three registers on a stack of three bytes, pushed up to pc 256 and popped up to pc 256. -/
theorem witness_StackIsLastInFirstOut :
    (∀ r ∈ [0#8, 3#8, 7#8], r.toNat ≤ 7) ∧ [0#8, 3#8, 7#8].length ≤ (small 250 3 [(0, 1), (3, 2), (7, 3)] [] []).sp.toNat ∧
    (small 250 3 [(0, 1), (3, 2), (7, 3)] [] []).pc.toNat + 2 * [0#8, 3#8, 7#8].length ≤ 256 ∧
    (small 250 3 [(0, 1), (3, 2), (7, 3)] [] []).mem.wf = true ∧ (small 252 1 [] [] []).sp ≠ 0 ∧ (small 252 1 [] [] []).pc.toNat ≤ 252 := by decide

theorem witness_StackIsLastInFirstOut_popping :
    ∃ t, execAll [.push 0, .push 3] (small 250 3 [(0, 1), (3, 2)] [] []) = .next t ∧
      (t.setPc 252).status.run = .running ∧ (t.setPc 252).mem = t.mem ∧ (t.setPc 252).sp = t.sp ∧ (t.setPc 252).pc.toNat + 2 * 2 ≤ 256 :=
  ⟨_, rfl, rfl, rfl, rfl, by decide⟩

theorem witness_RetResumesAfterCall :
    (small 253 1 [(2, 0x40)] [] []).sp ≠ 0 ∧ (small 253 1 [(2, 0x40)] [] []).pc.toNat ≤ 253 ∧ (2#8).toNat ≤ 7 ∧
    (small 253 1 [(2, 0x40)] [] []).mem.wf = true := by decide

/-- `u` can be the state CALL leaves, at another pc. -/
theorem witness_RetResumesAfterCall_back :
    ∃ t, exec (.call 2) (small 253 1 [(2, 0x40)] [] []) = .next t ∧ (t.setPc 9).sp = t.sp ∧ (t.setPc 9).readMem t.sp = t.readMem t.sp :=
  ⟨_, rfl, rfl, rfl⟩

/-- Between CALL and RET: a call nested in the subroutine, with its RET, and a PUSH with its POP. -/
theorem witness_RetResumesAfterCall_nested :
    ∃ t u, exec (.call 2) (small 10 0x80 [(2, 0x40)] [] []) = .next t ∧ CompletesWithin t.sp t u ∧ u.sp = t.sp ∧ u.mem ≠ t.mem :=
  ⟨_, _, rfl,
    .next .ret (.next (.pop 3) (.next (.push 2) (.next (.call 2) (.refl _) rfl rfl (by decide)) rfl rfl (by decide)) rfl rfl (by decide))
      rfl rfl (by decide), rfl, by decide⟩

/-- A PUSH and a CALL with an LDI and an ADD among them, as many as the stack holds. -/
theorem witness_StackCapacityIsSp :
    (∀ i ∈ [Instr.ldi 1 9, .push 0, .add 0 1, .call 1], kindOf i ∉ [Kind.pop, .ret]) ∧
    (∃ t, execAll [.ldi 1 9, .push 0, .add 0 1, .call 1] (small 0 2 [] [] []) = .next t ∧ ¬ t.trapped) ∧
    (Instr.call 7).wellFormed = true ∧ (small 254 0 [] [] []).pc.toNat ≤ 254 ∧ (small 254 0 [] [] []).sp = 0 :=
  ⟨by decide, ⟨_, rfl, nofun⟩, rfl, by decide, rfl⟩

/-- A machine that is built: another SP_INIT than the default, a three-byte image. -/
theorem witness_BootStateIsSpecified : ∃ s, boot { defaultParams with spInit := 6 } [0x82#8, 0x00#8, 0x01#8] = .ok s := ⟨_, rfl⟩

theorem witness_InvariantAfterBoot : ∃ s, boot { defaultParams with addBSelect := .regB } [0x01#8] = .ok s := ⟨_, rfl⟩

/-- With `witness_Inv`. -/
theorem witness_StepKeepsInvariant : ∃ t, step busy = .next t := ⟨_, rfl⟩

theorem witness_TraceHasNoEffect :
    (∃ t, step busy = .next t) ∧ busy.status.run = .running ∧ busy.params.traceEnable = false ∧
    ({ busy.params with traceEnable := true } : Params).traceEnable = true := ⟨⟨_, rfl⟩, rfl, rfl, rfl⟩

theorem witness_ProgramLineIsParsed :
    [' ', '\t'].all isBlankChar = true ∧ ['1', '0', '1', '0', '0', '0', '1', '0'] ≠ [] ∧
    ['1', '0', '1', '0', '0', '0', '1', '0'].length ≤ 8 ∧ ∀ c ∈ ['1', '0', '1', '0', '0', '0', '1', '0'], c = '0' ∨ c = '1' := by
  simp [isBlankChar]

/-- Other tokens: a digit 2, a space inside, nine digits. -/
theorem witness_ProgramLineIsParsed_other :
    ∀ token ∈ [['2'], ['1', ' ', '0'], List.replicate 9 '1'], token ≠ [] ∧ '#' ∉ token ∧
      (token.head?.map isBlankChar = some false ∧ token.getLast?.map isBlankChar = some false) ∧
      ¬ (token.length ≤ 8 ∧ ∀ c ∈ token, c = '0' ∨ c = '1') := by
  simp [List.replicate, isBlankChar]

theorem witness_ProgramLineIsParsed_bad_text :
    ['2'] ∈ ['1', '\n', '2'].splitOn '\n' ∧ parseLine ['2'] = .error .badLiteral :=
  ⟨by rw [show ['1', '\n', '2'].splitOn '\n' = [['1'], ['2']] from rfl]; simp, rfl⟩

/-- Both ports have an index, those of the instruction decoded. -/
theorem witness_OnlyCheckedIndicesReachFile :
    (portsAt0 [0xA0#8, 0x07#8, 0x00#8]).a = some 7 ∧ (portsAt0 [0xA0#8, 0x07#8, 0x00#8]).b = some 0 ∧
    decode defaultOpcodes (bytesAtPc (small 0 0xF4 [] [] [0xA0#8, 0x07#8, 0x00#8])) = .ok (.add 7 0, []) := ⟨by decide, by decide, rfl⟩

end Sys2Proof.Tests
end

/-!
PROOFS of 40_cycle.md. Every next state of a step is a trap of the state before or the whole effect of the instruction that
`decode` finds at pc (`step_trap_or_effect`); both statements are read off from that.
-/

namespace Sys2Proof.Machine

/-! ### The bytes at pc, and what decodes from them -/

/-- The bytes from pc up are the fetch_unit's three, cut off after address 255. -/
theorem bytesAtPc_eq_take (s : State) :
    bytesAtPc s = [(fetchUnit s.mem s.pc).opcode, (fetchUnit s.mem s.pc).op1, (fetchUnit s.mem s.pc).op2].take
      (256 - s.pc.toNat) := by
  simp only [bytesAtPc, fetchUnit, speculativeByte, State.readMem, List.range, List.range.loop]
  obtain h | h | h | h :
      256 ≤ s.pc.toNat ∨ s.pc.toNat = 255 ∨ s.pc.toNat = 254 ∨ s.pc.toNat ≤ 253 := by omega
  · have hn : 256 - s.pc.toNat = 0 := by omega
    simp [hn, show ¬ s.pc.toNat ≤ 255 by omega, show ¬ s.pc.toNat + 1 ≤ 255 by omega,
      show ¬ s.pc.toNat + 2 ≤ 255 by omega]
  · simp [h]
  · simp [h]
  · obtain ⟨n, hn⟩ : ∃ n, 256 - s.pc.toNat = n + 3 := ⟨253 - s.pc.toNat, by omega⟩
    simp [hn, show s.pc.toNat ≤ 255 by omega, show s.pc.toNat + 1 ≤ 255 by omega,
      show s.pc.toNat + 2 ≤ 255 by omega]

/-- An instruction's length is one more than its number of operand bytes (R60, R62). -/
theorem controls_len (k : Kind) : (controls k).len = operandCount k + 1 := by cases k <;> rfl

/-- The decoder takes a recognized instruction from three candidate bytes that are cut off no earlier than its last byte. -/
theorem decode_take {m : Opcodes} {opcode : Byte} {k : Kind} {n : Nat} (op1 op2 : Byte)
    (hk : recognize m opcode = some k) (hn : (controls k).len ≤ n) :
    decode m ([opcode, op1, op2].take n) =
      .ok (assemble k op1 op2, ([opcode, op1, op2].take n).drop (controls k).len) := by
  obtain ⟨j, rfl⟩ := Nat.exists_eq_add_of_le' hn
  cases k <;> simp [decode, hk, controls, assemble]

/-- With no byte of it cut off, the instruction decoded at pc is the fetched one. -/
theorem decode_bytesAtPc {s : State} {k : Kind}
    (hk : recognize s.params.opcodes (fetchUnit s.mem s.pc).opcode = some k)
    (hlen : s.pc.toNat + (controls k).len ≤ 256) :
    decode s.params.opcodes (bytesAtPc s) =
      .ok (assemble k (fetchUnit s.mem s.pc).op1 (fetchUnit s.mem s.pc).op2, (bytesAtPc s).drop (controls k).len) := by
  rw [bytesAtPc_eq_take]
  exact decode_take _ _ hk (by omega)

/-- An instruction no check stops has all its bytes in memory. -/
theorem pc_add_len_le_of_oobOf_eq_none {i : Instr} {s : State} (hpc : s.pc.toNat ≤ 255) (h : oobOf i s = none) :
    s.pc.toNat + (controls (kindOf i)).len ≤ 256 := by
  obtain ⟨hbytes, -⟩ := oobOf_eq_none.1 h
  rw [controls_len]
  omega

/-! ### An instruction that no check stops -/

theorem exec_of_oobOf_eq_none {i : Instr} {s : State} (h : oobOf i s = none) : exec i s = .next (effectOf i s) := by
  rw [exec_eq, h]

/-- No effect is a fault: HLT's halts, every other leaves STATUS. -/
theorem effectOf_not_trapped (i : Instr) {s : State} (h : s.status.run = .running) : ¬ (effectOf i s).trapped := by
  cases i <;> simp [effectOf, State.trapped, h]

theorem zext9_toNat (b : Byte) : (zext9 b).toNat = b.toNat := by
  rw [zext9, BitVec.toNat_setWidth]
  omega

/-- pc + len does not wrap while the instruction lies within memory. -/
theorem seqPc_toNat {s : State} {len : Nat} (h : s.pc.toNat + len ≤ 256) : (seqPc s len).toNat = s.pc.toNat + len := by
  rw [seqPc, BitVec.toNat_add, BitVec.toNat_ofNat]
  omega

/-- R84's table, from the effects: SEQ for the instructions that go on, TARGET for CALL, MEM for RET, HOLD for HLT. -/
theorem effectOf_pc_toNat {i : Instr} {s : State} (hlen : s.pc.toNat + (controls (kindOf i)).len ≤ 256) :
    (effectOf i s).pc.toNat = nextPcNat i s := by
  cases i with
  | hlt => rfl
  | ldi | mul | add | prn | push | pop => exact seqPc_toNat hlen
  | call | ret => exact zext9_toNat _

/-! ### The step -/

/-- R81, R82: a next state is a trap of the state before, or the whole effect of the instruction decoded at pc, whose bytes
all stand in memory. -/
theorem step_trap_or_effect {s t : State} (h : step s = .next t) :
    (∃ c k opcode, t = s.takeTrap c k opcode) ∨
    ∃ i rest, decode s.params.opcodes (bytesAtPc s) = .ok (i, rest) ∧
      s.pc.toNat + (controls (kindOf i)).len ≤ 256 ∧ oobOf i s = none ∧ t = effectOf i s := by
  obtain ⟨-, ⟨-, rfl⟩ | ⟨-, -, rfl⟩ | ⟨hpc, k, hk, hexec⟩⟩ := step_cases h
  · exact .inl ⟨_, _, _, rfl⟩
  · exact .inl ⟨_, _, _, rfl⟩
  · obtain ⟨kind, -, rfl⟩ | ⟨hoob, rfl⟩ := exec_cases hexec
    · exact .inl ⟨_, _, _, rfl⟩
    · have hlen := pc_add_len_le_of_oobOf_eq_none hpc hoob
      exact .inr ⟨_, _, decode_bytesAtPc hk (by rwa [kindOf_assemble] at hlen), hlen, hoob, rfl⟩

theorem exists_step_iff_running (s : State) : (∃ t, step s = .next t) ↔ s.status.run = .running := by
  refine ⟨fun ⟨t, h⟩ => (step_cases h).1, fun h => ?_⟩
  rw [step_running h]
  cases fetchDecode s with
  | trapped t => exact ⟨t, rfl⟩
  | instr i => exact ⟨_, exec_eq i s⟩

/-- Settles O23: every next state is a trap or the effect of the decoded instruction. -/
theorem stepExistsExactlyWhenRunning : Obligations.StepExistsExactlyWhenRunning := by
  refine fun s => ⟨exists_step_iff_running s, fun t h => ?_⟩
  obtain ⟨c, k, opcode, rfl⟩ | ⟨i, rest, hdec, -, hoob, rfl⟩ := step_trap_or_effect h
  · exact .inl rfl
  · exact .inr ⟨i, rest, hdec, exec_of_oobOf_eq_none hoob⟩

/-- Settles O29: a trap keeps pc, and an effect, which is never a trap, moves it by R84's table. -/
theorem nextPcFollowsPcLogic : Obligations.NextPcFollowsPcLogic := by
  intro s t h
  obtain ⟨c, k, opcode, rfl⟩ | ⟨i, rest, hdec, hlen, -, rfl⟩ := step_trap_or_effect h
  · exact ⟨fun _ => rfl, fun hn => absurd rfl hn⟩
  · exact ⟨fun ht => absurd ht (effectOf_not_trapped i (step_cases h).1),
      fun _ => ⟨i, rest, hdec, effectOf_pc_toNat hlen⟩⟩

end Sys2Proof.Machine

/-!
PROOFS of 41_basic.md. When HLT, LDI and PRN complete, each with its effect; both statements follow from that.
-/

namespace Sys2Proof.Machine

/-! ### HLT -/

/-- HLT has no operand byte and does not move SP, so no check of R83 can stop it. -/
theorem exec_hlt (s : State) : exec .hlt s = .next s.halt :=
  exec_of_oobOf_eq_none <| oobOf_eq_none.2 ⟨.inl rfl, rfl, nofun, nofun, nofun⟩

theorem step_halt_ne_next (s u : State) : step s.halt ≠ .next u := by
  intro h
  have hrun : s.halt.status.run = .running := (exists_step_iff_running s.halt).1 ⟨u, h⟩
  simp at hrun

/-- Settles O7: HLT's effect is `State.halt`, after which the machine is not RUNNING. -/
theorem hltHalts : Obligations.HltHalts :=
  fun s => ⟨rfl, s.halt, exec_hlt s, rfl, step_halt_ne_next s⟩

/-! ### LDI, then PRN -/

/-- LDI completes where its two operand bytes are in memory and its register is one of the eight. -/
theorem exec_ldi {reg : Byte} (imm : Byte) {s : State} (hreg : reg.toNat ≤ 7) (hpc : s.pc.toNat + 2 ≤ 255) :
    exec (.ldi reg imm) s = .next ((s.writeReg reg imm).setPc (seqPc s 3)) :=
  exec_of_oobOf_eq_none <| oobOf_eq_none.2 ⟨.inr hpc, decide_eq_true hreg, nofun, nofun, nofun⟩

/-- PRN completes where its operand byte is in memory and its register is one of the eight. -/
theorem exec_prn {reg : Byte} {s : State} (hreg : reg.toNat ≤ 7) (hpc : s.pc.toNat + 1 ≤ 255) :
    exec (.prn reg) s = .next ((s.emit (s.readReg reg)).setPc (seqPc s 2)) :=
  exec_of_oobOf_eq_none <| oobOf_eq_none.2 ⟨.inr hpc, decide_eq_true hreg, nofun, nofun, nofun⟩

/-- A valid register holds what was written to it. -/
theorem readReg_writeReg_same {reg : Byte} (v : Byte) (s : State) (hreg : reg.toNat ≤ 7) :
    (s.writeReg reg v).readReg reg = v := by
  rw [State.writeReg_readReg, if_pos ⟨rfl, by omega⟩]

/-- Settles O33: LDI leaves the immediate in the register and PRN's bytes in memory, and PRN emits that register. -/
theorem ldiThenPrnPrintsImmediate : Obligations.LdiThenPrnPrintsImmediate := by
  intro reg v s hreg hpc
  have hpc' : (seqPc s 3).toNat = s.pc.toNat + 3 := seqPc_toNat (by omega)
  refine ⟨_, _, exec_ldi v hreg (by omega), exec_prn hreg ?_, ?_⟩
  · rw [State.setPc_pc, hpc']
    omega
  · simp [readReg_writeReg_same v s hreg]

end Sys2Proof.Machine

/-!
PROOFS of 42_alu.md. The byte that holds `n % 256` has that value; both operations of the byte_alu answer such a byte.
-/

namespace Sys2Proof.Machine

/-- A byte made of a number already reduced mod 256 loses nothing of it. -/
theorem ofNat_mod_256_toNat (n : Nat) : (BitVec.ofNat 8 (n % 256)).toNat = n % 256 :=
  (BitVec.toNat_ofNat (n % 256) 8).trans (Nat.mod_mod n 256)

theorem byteAlu_add_toNat (a b : Byte) : (byteAlu .add a b).toNat = (a.toNat + b.toNat) % 256 :=
  ofNat_mod_256_toNat (a.toNat + b.toNat)

theorem byteAlu_mul_toNat (a b : Byte) : (byteAlu .mul a b).toNat = a.toNat * b.toNat % 256 :=
  ofNat_mod_256_toNat (a.toNat * b.toNat)

/-- Settles O16: the byte_alu reduces the integer result before it makes a byte of it. -/
theorem byteAluReducesModulo256 : Obligations.ByteAluReducesModulo256 :=
  fun a b => ⟨byteAlu_add_toNat a b, byteAlu_mul_toNat a b⟩

end Sys2Proof.Machine

/-!
PROOFS of 43_stack.md. PUSH and POP when they complete, each with its effect. A list of PUSHes leaves its values below the old SP
(`Stacked`), and the POPs in reverse order take from any such stack, whatever the registers hold.
-/

namespace Sys2Proof.Machine

/-! ### Instructions executed one after the other -/

theorem execAll_cons_eq_next {i : Instr} {rest : List Instr} {s u : State} :
    execAll (i :: rest) s = .next u ↔
      s.status.run = .running ∧ ∃ t, exec i s = .next t ∧ execAll rest t = .next u := by
  rw [execAll, ← noStep_eq_none]
  cases s.noStep with
  | some f => simp
  | none => simp [exec_eq]

theorem execAll_append_eq_next {is js : List Instr} {s u : State} :
    execAll (is ++ js) s = .next u ↔ ∃ t, execAll is s = .next t ∧ execAll js t = .next u := by
  induction is generalizing s with
  | nil => simp [execAll]
  | cons i rest ih =>
    simp only [List.cons_append, execAll_cons_eq_next, ih]
    exact ⟨fun ⟨hrun, a, ha, t, ht, hu⟩ => ⟨t, ⟨hrun, a, ha, ht⟩, hu⟩,
      fun ⟨t, ⟨hrun, a, ha, ht⟩, hu⟩ => ⟨hrun, a, ha, t, ht, hu⟩⟩

/-! ### PUSH and POP when they complete -/

/-- PUSH completes where its operand byte is in memory, its register is one of the eight and SP is not 0. -/
theorem exec_push {reg : Byte} {s : State} (hreg : reg.toNat ≤ 7) (hsp : s.sp ≠ 0) (hpc : s.pc.toNat + 1 ≤ 255) :
    exec (.push reg) s = .next (((s.writeMem (pushSlot s) (s.readReg reg)).setSp (pushSlot s)).setPc (seqPc s 2)) :=
  exec_of_oobOf_eq_none <| oobOf_eq_none.2 ⟨.inr hpc, decide_eq_true hreg, fun _ => hsp, nofun, nofun⟩

/-- POP completes where its operand byte is in memory, its register is one of the eight and SP is not 255. -/
theorem exec_pop {reg : Byte} {s : State} (hreg : reg.toNat ≤ 7) (hsp : s.sp ≠ 255) (hpc : s.pc.toNat + 1 ≤ 255) :
    exec (.pop reg) s = .next (((s.writeReg reg (s.readMem s.sp)).setSp (s.sp + 1)).setPc (seqPc s 2)) :=
  exec_of_oobOf_eq_none <| oobOf_eq_none.2 ⟨.inr hpc, decide_eq_true hreg, nofun, fun _ => hsp, nofun⟩

/-- SP moves down without wrapping while it is not 0. -/
theorem sub_one_toNat_add_one {sp : Byte} (h : sp ≠ 0) : (sp - 1).toNat + 1 = sp.toNat := by bv_omega

/-- The slot below a SP that is not 0 can be popped. -/
theorem sub_one_ne_255 {sp : Byte} (h : sp ≠ 0) : sp - 1 ≠ 255 := by bv_omega

/-! ### A list of PUSHes, and the POPs in reverse order -/

/-- The values stand in memory one below the other, the first of them right below `base`: what PUSHing them in this order with SP
at `base` leaves. -/
def Stacked (m : Memory) : Byte → List Byte → Prop
  | _, [] => True
  | base, v :: vs => m.read (base - 1) = v ∧ Stacked m (base - 1) vs

/-- As many PUSHes as SP's value allows complete, stack their registers' values, and leave every byte from the old SP up. -/
theorem execAll_push_stacked {regs : List Byte} {s : State} (hrun : s.status.run = .running) (hwf : s.mem.wf = true)
    (hregs : ∀ r ∈ regs, r.toNat ≤ 7) (hsp : regs.length ≤ s.sp.toNat) (hpc : s.pc.toNat + 2 * regs.length ≤ 256) :
    ∃ t, execAll (regs.map .push) s = .next t ∧ t.sp.toNat + regs.length = s.sp.toNat ∧
      Stacked t.mem s.sp (regs.map s.readReg) ∧ ∀ a : Byte, s.sp.toNat ≤ a.toNat → t.mem.read a = s.mem.read a := by
  induction regs generalizing s with
  | nil => exact ⟨s, rfl, rfl, trivial, fun _ _ => rfl⟩
  | cons r rs ih =>
    obtain ⟨hr, hrs⟩ := List.forall_mem_cons.1 hregs
    rw [List.length_cons] at hsp hpc
    have hsp0 : s.sp ≠ 0 := by intro h; simp [h] at hsp
    have hslot : (pushSlot s).toNat + 1 = s.sp.toNat := sub_one_toNat_add_one hsp0
    have hnext : (seqPc s 2).toNat = s.pc.toNat + 2 := seqPc_toNat (by omega)
    obtain ⟨t, hexec, htsp, hstack, hframe⟩ :=
      ih (s := ((s.writeMem (pushSlot s) (s.readReg r)).setSp (pushSlot s)).setPc (seqPc s 2)) hrun
        (Memory.wf_write hwf _ _) hrs (by rw [State.setPc_sp, State.setSp_sp]; omega) (by rw [State.setPc_pc]; omega)
    rw [State.setPc_sp, State.setSp_sp] at htsp hstack hframe
    have hmem : ∀ a : Byte, (pushSlot s).toNat ≤ a.toNat →
        t.mem.read a = if a = pushSlot s then s.readReg r else s.mem.read a :=
      fun a ha => (hframe a ha).trans (Memory.read_write hwf _ _ _)
    refine ⟨t, ?_, by rw [List.length_cons]; omega, ⟨?_, hstack⟩, fun a ha => ?_⟩
    · exact execAll_cons_eq_next.2 ⟨hrun, _, exec_push hr hsp0 (by omega), hexec⟩
    · exact (hmem _ le_rfl).trans (if_pos rfl)
    · exact (hmem a (by omega)).trans (if_neg fun h => by subst h; omega)

/-- POPs in reverse order complete on a stack of as many values: each register holds its value, SP is back at the stack's base,
and nothing was stored. -/
theorem execAll_pop_stacked {regs : List Byte} {value : Byte → Byte} {base : Byte} {u : State}
    (hrun : u.status.run = .running) (hstack : Stacked u.mem base (regs.map value))
    (hregs : ∀ r ∈ regs, r.toNat ≤ 7) (hsp : u.sp.toNat + regs.length = base.toNat)
    (hpc : u.pc.toNat + 2 * regs.length ≤ 256) :
    ∃ v, execAll (regs.reverse.map .pop) u = .next v ∧ v.sp = base ∧ v.mem = u.mem ∧ v.status = u.status ∧
      v.pc.toNat = u.pc.toNat + 2 * regs.length ∧ ∀ r ∈ regs, v.readReg r = value r := by
  induction regs generalizing base with
  | nil => exact ⟨u, rfl, BitVec.eq_of_toNat_eq hsp, rfl, rfl, rfl, nofun⟩
  | cons r rs ih =>
    obtain ⟨hr, hrs⟩ := List.forall_mem_cons.1 hregs
    obtain ⟨htop, hbelow⟩ := hstack
    rw [List.length_cons] at hsp hpc
    have hbase : base ≠ 0 := by rintro rfl; simp at hsp
    have hslot : (base - 1).toNat + 1 = base.toNat := sub_one_toNat_add_one hbase
    obtain ⟨v, hexec, hvsp, hvmem, hvstatus, hvpc, hvregs⟩ := ih hbelow hrs (by omega) (by omega)
    have hpop := exec_pop (s := v) hr (hvsp ▸ sub_one_ne_255 hbase) (by omega)
    have hread : v.readMem v.sp = value r := by rw [State.readMem, hvmem, hvsp, htop]
    have hlast : execAll [.pop r] v = .next _ := execAll_cons_eq_next.2 ⟨hvstatus ▸ hrun, _, hpop, rfl⟩
    rw [List.reverse_cons, List.map_append]
    refine ⟨_, execAll_append_eq_next.2 ⟨v, hexec, hlast⟩, ?_, hvmem, hvstatus, ?_, fun x hx => ?_⟩
    · rw [State.setPc_sp, State.setSp_sp, hvsp, BitVec.sub_add_cancel]
    · rw [State.setPc_pc, seqPc_toNat (by omega), hvpc, List.length_cons]
      omega
    · rw [State.setPc_readReg, State.setSp_readReg, hread]
      by_cases hrx : r = x
      · subst hrx
        exact readReg_writeReg_same _ _ hr
      · rw [State.writeReg_readReg, if_neg fun h => hrx h.1]
        exact hvregs x (List.mem_of_ne_of_mem (Ne.symm hrx) hx)

/-! ### The statement -/

/-- PUSH, then POP into any register: the value is back in it and SP is where it was. -/
theorem exec_push_then_pop {regA regB : Byte} {s : State} (hA : regA.toNat ≤ 7) (hB : regB.toNat ≤ 7)
    (hwf : s.mem.wf = true) (hsp : s.sp ≠ 0) (hpc : s.pc.toNat ≤ 252) :
    ∃ t u, exec (.push regA) s = .next t ∧ exec (.pop regB) t = .next u ∧
      u.readReg regB = s.readReg regA ∧ u.sp = s.sp := by
  have hnext : (seqPc s 2).toNat = s.pc.toNat + 2 := seqPc_toNat (by omega)
  refine ⟨_, _, exec_push hA hsp (by omega), exec_pop hB (sub_one_ne_255 hsp) ?_, ?_, ?_⟩
  · rw [State.setPc_pc, hnext]
    omega
  · simp [readReg_writeReg_same _ _ hB, State.readMem, Memory.read_write hwf]
  · simp [pushSlot]

/-- Settles O34: POP undoes one PUSH, and what a list of PUSHes stacks the POPs in reverse order take back. -/
theorem stackIsLastInFirstOut : Obligations.StackIsLastInFirstOut := by
  refine ⟨fun _ _ _ hA hB hwf hsp hpc => exec_push_then_pop hA hB hwf hsp hpc, ?_⟩
  intro regs s hrun hwf hregs hsp hpc
  obtain ⟨t, hpush, htsp, hstack, -⟩ := execAll_push_stacked hrun hwf hregs hsp hpc
  refine ⟨t, hpush, fun u hurun humem husp hupc => ?_⟩
  obtain ⟨v, hpop, hvsp, -, -, -, hvregs⟩ :=
    execAll_pop_stacked hurun (humem ▸ hstack) hregs (husp ▸ htsp) hupc
  exact ⟨v, hpop, hvsp, hvregs⟩

end Sys2Proof.Machine

/-!
PROOFS of 60_exceptions.md. A step traps for a pc past memory, with no byte fetched, or for the byte at pc, which it records
(`step_trapped_cases`).
-/

namespace Sys2Proof.Machine

/-- With pc in memory, the fetch_unit's opcode is memory's byte at pc (R68). -/
theorem fetchUnit_opcode {s : State} (hpc : s.pc.toNat ≤ 255) :
    (fetchUnit s.mem s.pc).opcode = s.readMem (BitVec.ofNat 8 s.pc.toNat) :=
  if_pos hpc

/-- The opcode byte an instruction's own trap records is the byte its kind was recognized from. -/
theorem opcodeByte_assemble {s : State} {opcode : Byte} {k : Kind} (op1 op2 : Byte)
    (hk : recognize s.params.opcodes opcode = some k) : opcodeByte s (assemble k op1 op2) = opcode := by
  rw [opcodeByte, kindOf_assemble, byteOf_of_recognize hk]

/-- Every trap a step can take: FETCH_PC past memory, or one that records the byte at pc, which is unrecognized or whose
instruction fails a check. -/
theorem step_trapped_cases {s t : State} (h : step s = .next t) (ht : t.trapped) :
    (255 < s.pc.toNat ∧ t = s.takeTrap .outOfBoundsAccess .fetchPc none) ∨
    (s.pc.toNat ≤ 255 ∧ ∃ c kind, t = s.takeTrap c kind (some (s.readMem (BitVec.ofNat 8 s.pc.toNat))) ∧
      (c = .unrecognizedOpcode ∧ kind = .none ∨ c = .outOfBoundsAccess ∧ kind ≠ .none)) := by
  obtain ⟨hrun, hfetch | ⟨hpc, -, rfl⟩ | ⟨hpc, k, hk, hexec⟩⟩ := step_cases h
  · exact .inl hfetch
  · exact .inr ⟨hpc, _, _, by rw [fetchUnit_opcode hpc], .inl ⟨rfl, rfl⟩⟩
  · obtain ⟨kind, hoob, rfl⟩ | ⟨-, rfl⟩ := exec_cases hexec
    · exact .inr ⟨hpc, _, kind, by rw [opcodeByte_assemble _ _ hk, fetchUnit_opcode hpc],
        .inr ⟨rfl, (firstOob_ne hoob).1⟩⟩
    · exact absurd ht (effectOf_not_trapped _ hrun)

/-- Settles O25: trap entry writes STATUS alone, and each of the traps of `step_trapped_cases` gives it what R146 says. -/
theorem trapWritesOnlyStatus : Obligations.TrapWritesOnlyStatus := by
  intro s t h ht
  obtain ⟨hpc, rfl⟩ | ⟨hpc, c, kind, rfl, ⟨rfl, rfl⟩ | ⟨rfl, hkind⟩⟩ := step_trapped_cases h ht
  · exact ⟨rfl, nofun, by simp, rfl, fun hle => by omega, fun _ => ⟨rfl, rfl⟩⟩
  · exact ⟨rfl, nofun, by simp, rfl, fun _ => ⟨rfl, rfl⟩, fun hge => by omega⟩
  · exact ⟨rfl, nofun, by simpa using hkind, rfl, fun _ => ⟨rfl, rfl⟩, fun hge => by omega⟩

/-- Settles O26: of the three outcomes of fetch and decode only UnrecognizedOpcode is left. -/
theorem unrecognizedOpcodeIsRecorded : Obligations.UnrecognizedOpcodeIsRecorded := by
  intro s hrun hpc hunknown
  have hnone : recognize s.params.opcodes (fetchUnit s.mem s.pc).opcode = none := by
    rw [fetchUnit_opcode hpc]
    exact recognize_eq_none.2 hunknown
  obtain ⟨hgt, -⟩ | ⟨-, -, htrap⟩ | ⟨-, k, hk, -⟩ := fetchDecode_cases s
  · omega
  · rw [step_running hrun, htrap, fetchUnit_opcode hpc]
    rfl
  · rw [hnone] at hk
    contradiction

end Sys2Proof.Machine

/-!
PROOFS of 30_encoding.md. What decodes, for every map, is an encoding whose opcode byte the map reads as its mnemonic
(`decode_eq_ok`); in a well-formed map every mnemonic's byte is read so.
-/

namespace Sys2Proof

/-! ### Decoding and encoding -/

/-- An assembled instruction keeps the candidate operand bytes its format has. -/
theorem operandsOf_assemble (k : Kind) (x y : Byte) : operandsOf (assemble k x y) = [x, y].take (operandCount k) := by
  cases k <;> rfl

theorem encode_assemble (m : Opcodes) (k : Kind) (x y : Byte) :
    encode m (assemble k x y) = m.byteOf k :: [x, y].take (operandCount k) := by
  rw [encode, kindOf_assemble, operandsOf_assemble]

/-- A byte string decodes exactly when it starts with an encoding whose opcode byte the map reads as that mnemonic. -/
theorem decode_eq_ok {m : Opcodes} {bytes rest : List Byte} {i : Instr} :
    decode m bytes = .ok (i, rest) ↔
      bytes = encode m i ++ rest ∧ recognize m (m.byteOf (kindOf i)) = some (kindOf i) := by
  constructor
  · intro h
    unfold decode at h
    split at h
    · contradiction
    split at h
    · contradiction
    rename_i opcode tail _ k hk
    have hbyte := byteOf_of_recognize hk
    have hlen := Machine.controls_len k
    split at h <;> cases h <;> rw [encode_assemble, kindOf_assemble, hbyte]
    case h_1 hone => simp [show operandCount k = 0 by omega, hk]
    case h_2 op1 htwo => simp [show operandCount k = 1 by omega, hk]
    case h_3 op1 op2 hthree => simp [show operandCount k = 2 by omega, hk]
  · rintro ⟨rfl, hk⟩
    cases i <;> simp_all [encode, decode, controls, assemble, kindOf, operandsOf]

/-- Settles O3: both halves are `decode_eq_ok`, the first with `recognize_byteOf` for a well-formed map. -/
theorem decodeInvertsEncode : Obligations.DecodeInvertsEncode :=
  ⟨fun _ i _ hm => decode_eq_ok.2 ⟨rfl, recognize_byteOf hm (kindOf i)⟩, fun _ _ _ _ h => (decode_eq_ok.1 h).1.symm⟩

/-! ### The length and the opcode byte's bits [7:6] -/

/-- Condition 2 of R65, for each mnemonic, with bits [7:6] as a quotient. -/
theorem Opcodes.countsAgree_iff {m : Opcodes} :
    m.countsAgree = true ↔ ∀ k, (m.byteOf k).toNat / 64 = operandCount k := by
  have hbits (b : Byte) : (b.extractLsb 7 6).toNat = b.toNat / 64 := by
    rw [BitVec.extractLsb_toNat, Nat.shiftRight_eq_div_pow]
    omega
  simp only [Opcodes.countsAgree, List.all_eq_true, beq_iff_eq, mem_allKinds, true_implies, hbits]

/-- Condition 1 of R65: the map is injective. -/
theorem Opcodes.distinct_iff {m : Opcodes} : m.distinct = true ↔ ∀ k k', m.byteOf k = m.byteOf k' → k = k' := by
  rw [Opcodes.distinct, decide_eq_true_eq]
  refine ⟨fun h k k' => List.inj_on_of_nodup_map h (mem_allKinds k) (mem_allKinds k'), fun h => ?_⟩
  exact List.Nodup.map (fun k k' => h k k') (by decide)

/-- R65's two conditions. -/
theorem Opcodes.wellFormed_iff {m : Opcodes} :
    m.wellFormed = true ↔
      (∀ k k', m.byteOf k = m.byteOf k' → k = k') ∧ ∀ k, (m.byteOf k).toNat / 64 = operandCount k := by
  rw [Opcodes.wellFormed, Bool.and_eq_true, Opcodes.distinct_iff, Opcodes.countsAgree_iff]

theorem encode_length (m : Opcodes) (i : Instr) : (encode m i).length = operandCount (kindOf i) + 1 := by
  cases i <;> rfl

/-- Settles O4: both lengths are the operand count plus one (R60, R62), and R65 makes bits [7:6] the operand count. -/
theorem lengthAgreesWithCountBits : Obligations.LengthAgreesWithCountBits := by
  intro m i hm
  obtain ⟨-, hcount⟩ := Opcodes.wellFormed_iff.1 hm
  rw [encode_length, Machine.controls_len, hcount]
  exact ⟨rfl, rfl⟩

/-- Settles O2: each of the spec's words is evaluated, the count of unrecognized bytes in the kernel. -/
theorem tableWordsDecode : Obligations.TableWordsDecode :=
  ⟨rfl, rfl, rfl, rfl, rfl, rfl, rfl, rfl, rfl, rfl, rfl, by decide +kernel⟩

end Sys2Proof

/-!
PROOFS of 40_cycle.md, the checks and the step. The checks of R83 are one ordered list for an instruction (`oobOf_eq`), and
what `decode` finds at pc is what the fetch_unit and the decoder find there (`decode_bytesAtPc_eq_ok`).
-/

namespace Sys2Proof.Machine

/-! ### The checks, in order -/

/-- Items 3 to 6 of R83 in order, for an instruction: its bytes, its register indices, SP, the return address. -/
theorem oobOf_eq (i : Instr) (s : State) :
    oobOf i s =
      if operandCount (kindOf i) ≠ 0 ∧ 255 < s.pc.toNat + operandCount (kindOf i) then some .operandFetch
      else if i.wellFormed = false then some .regIndex
      else if (controls (kindOf i)).spOp = .dec ∧ s.sp = 0 then some .spDecrement
      else if (controls (kindOf i)).spOp = .inc ∧ s.sp = 255 then some .spIncrement
      else if kindOf i = .call ∧ 255 < s.pc.toNat + 2 then some .returnAddress
      else none := by
  cases i <;>
    simp [oobOf, firstOob, kindOf, controls, op1Of, op2Of, operandsOf, badRegIndex, operandCount, Instr.wellFormed]
  case ldi => omega
  case mul | add => grind

section
variable {i : Instr} {s : State}

theorem oobOf_operandFetch (hcount : operandCount (kindOf i) ≠ 0)
    (hrange : 255 < s.pc.toNat + operandCount (kindOf i)) : oobOf i s = some .operandFetch := by
  rw [oobOf_eq, if_pos ⟨hcount, hrange⟩]

/-- Behind the check of its bytes, an instruction's first fault is one of its indices. -/
theorem oobOf_regIndex (hrange : s.pc.toNat + operandCount (kindOf i) ≤ 255) (hwf : i.wellFormed = false) :
    oobOf i s = some .regIndex := by
  rw [oobOf_eq, if_neg fun h => by omega, if_pos hwf]

/-- Behind the checks of its bytes and indices, an instruction's first fault is SP's or the return address. -/
theorem oobOf_of_wellFormed (hrange : operandCount (kindOf i) = 0 ∨ s.pc.toNat + operandCount (kindOf i) ≤ 255)
    (hwf : i.wellFormed = true) :
    oobOf i s =
      if (controls (kindOf i)).spOp = .dec ∧ s.sp = 0 then some .spDecrement
      else if (controls (kindOf i)).spOp = .inc ∧ s.sp = 255 then some .spIncrement
      else if kindOf i = .call ∧ 255 < s.pc.toNat + 2 then some .returnAddress
      else none := by
  rw [oobOf_eq, if_neg fun h => by omega, if_neg (by simp [hwf])]

/-- A well-formed instruction never reports an index. -/
theorem oobOf_ne_regIndex (hwf : i.wellFormed = true) : oobOf i s ≠ some .regIndex := by
  rw [oobOf_eq, hwf]
  split_ifs <;> simp_all

/-- An instruction that a check stops takes its trap, with its opcode byte recorded. -/
theorem exec_of_oobOf_eq_some {kind : OobKind} (h : oobOf i s = some kind) :
    exec i s = .next (s.takeTrap .outOfBoundsAccess kind (some (s.params.opcodes.byteOf (kindOf i)))) := by
  rw [exec_eq, h, opcodeByte]

end

/-! ### The instruction at pc -/

/-- The decoder finds an instruction at pc exactly when the fetched opcode is recognized and no byte of it lies past 255. -/
theorem decode_bytesAtPc_eq_ok {s : State} {i : Instr} {rest : List Byte} :
    decode s.params.opcodes (bytesAtPc s) = .ok (i, rest) ↔
      ∃ k, recognize s.params.opcodes (fetchUnit s.mem s.pc).opcode = some k ∧ s.pc.toNat + operandCount k ≤ 255 ∧
        i = assemble k (fetchUnit s.mem s.pc).op1 (fetchUnit s.mem s.pc).op2 ∧
        rest = (bytesAtPc s).drop (operandCount k + 1) := by
  constructor
  · intro h
    obtain ⟨hbytes, hk⟩ := decode_eq_ok.1 h
    rw [bytesAtPc_eq_take] at hbytes
    have hlen := congrArg List.length hbytes
    rw [List.length_append, encode_length, List.length_take] at hlen
    obtain ⟨n, hn⟩ : ∃ n, 256 - s.pc.toNat = n + 1 := Nat.exists_eq_add_one.2 (by omega)
    rw [hn, List.take_succ_cons, encode, List.cons_append] at hbytes
    rw [← (List.cons.inj hbytes).1] at hk
    have hrange : s.pc.toNat + operandCount (kindOf i) ≤ 255 := by omega
    have hdec := decode_bytesAtPc hk (by rw [controls_len]; omega)
    rw [h, controls_len] at hdec
    obtain ⟨hi, hrest⟩ := Prod.mk.inj (Except.ok.inj hdec)
    exact ⟨_, hk, hrange, hi, hrest⟩
  · rintro ⟨k, hk, hrange, rfl, rfl⟩
    have hlen : s.pc.toNat + (controls k).len ≤ 256 := by rw [controls_len]; omega
    rw [decode_bytesAtPc hk hlen, controls_len]

/-- A RUNNING machine executes the instruction its fetched bytes make. -/
theorem step_of_recognize {s : State} {k : Kind} (hrun : s.status.run = .running) (hpc : s.pc.toNat ≤ 255)
    (hk : recognize s.params.opcodes (fetchUnit s.mem s.pc).opcode = some k) :
    step s = exec (assemble k (fetchUnit s.mem s.pc).op1 (fetchUnit s.mem s.pc).op2) s := by
  obtain ⟨hgt, -⟩ | ⟨-, hnone, -⟩ | ⟨-, k', hk', hfetch⟩ := fetchDecode_cases s
  · omega
  · simp [hk] at hnone
  · obtain rfl : k = k' := by simpa [hk] using hk'
    rw [step_running hrun, hfetch]

/-- Settles O1: what decodes at pc is what the fetch_unit and the decoder hand to `exec`. -/
theorem stepRunsDecodedInstruction : Obligations.StepRunsDecodedInstruction := by
  intro s i rest hrun hdec
  obtain ⟨k, hk, hrange, rfl, -⟩ := decode_bytesAtPc_eq_ok.1 hdec
  exact step_of_recognize hrun (by omega) hk

end Sys2Proof.Machine

/-!
PROOFS of the frames (10_state.md, 20_memory.md section 1): what an effect writes, one lemma for each field of the state.
-/

namespace Sys2Proof.Machine

/-! ### What an effect writes -/

section
variable (i : Instr) (s : State)

@[simp] theorem effectOf_params : (effectOf i s).params = s.params := by cases i <;> rfl

theorem effectOf_status :
    (effectOf i s).status = if kindOf i = .hlt then { s.status with run := .halted } else s.status := by
  cases i <;> rfl

/-- SP follows the decoder's stack pointer control (R87). -/
theorem effectOf_sp :
    (effectOf i s).sp = match (controls (kindOf i)).spOp with
      | .none => s.sp
      | .dec => s.sp - 1
      | .inc => s.sp + 1 := by
  cases i <;> rfl

theorem effectOf_mem_wf (hwf : s.mem.wf = true) : (effectOf i s).mem.wf = true := by
  cases i with
  | push | call => exact Memory.wf_write hwf _ _
  | hlt | ldi | prn | mul | add | pop | ret => exact hwf

end

section
variable {i : Instr} {s : State}

theorem effectOf_out_of_ne_prn (h : kindOf i ≠ .prn) : (effectOf i s).out = s.out := by
  cases i with
  | prn => exact absurd rfl h
  | hlt | ldi | mul | add | push | pop | call | ret => rfl

/-- A register other than the one written keeps its value. -/
theorem readReg_writeReg_ne {r x : Byte} (v : Byte) (h : r ≠ x) : (s.writeReg r v).readReg x = s.readReg x := by
  rw [State.writeReg_readReg, if_neg fun hx => h hx.1]

/-- Every register but the destination keeps its value. -/
theorem effectOf_readReg_of_ne {r : Byte} (h : destReg i ≠ some r) : (effectOf i s).readReg r = s.readReg r := by
  cases i with
  | ldi | mul | add | pop => exact readReg_writeReg_ne _ fun e => h (congrArg some e)
  | hlt | prn | push | call | ret => rfl

/-- Every byte but the one at the slot stored to keeps its value. -/
theorem effectOf_readMem_of_ne {a : Byte} (h : storeSlot i s ≠ some a) : (effectOf i s).readMem a = s.readMem a := by
  cases i with
  | push | call => exact Memory.read_write_ne _ (fun e => h (congrArg some e.symm)) _
  | hlt | ldi | prn | mul | add | pop | ret => rfl

end

/-- An instruction that leaves SP alone is none of the four stack instructions (R28). -/
theorem spOp_eq_none_iff {k : Kind} : (controls k).spOp = .none ↔ k ∉ [Kind.push, .pop, .call, .ret] := by
  cases k <;> decide

/-- Settles O18: a trap writes STATUS alone, and each clause is an effect's lemma for its field. -/
theorem frameOfEveryInstruction : Obligations.FrameOfEveryInstruction := by
  intro i s t h
  obtain ⟨kind, -, rfl⟩ | ⟨-, rfl⟩ := exec_cases h
  · exact ⟨fun _ _ => rfl, fun _ _ => rfl, fun _ => rfl, fun _ => rfl, fun _ hn => absurd rfl hn, fun _ _ => rfl, rfl⟩
  · refine ⟨fun r => effectOf_readReg_of_ne, fun a => effectOf_readMem_of_ne, fun hk => ?_, effectOf_out_of_ne_prn,
      fun hk _ => ?_, fun hs ht => ?_, effectOf_params i s⟩
    · rw [effectOf_sp, spOp_eq_none_iff.2 hk]
    · rw [effectOf_status, if_neg hk]
    · rw [State.trapped, effectOf_status] at ht
      split at ht
      · contradiction
      · exact absurd ht hs

/-! ### SP -/

/-- SP moves up without wrapping while it is not 255. -/
theorem add_one_toNat {sp : Byte} (h : sp ≠ 255) : (sp + 1).toNat = sp.toNat + 1 := by bv_omega

/-- SP of a completed instruction, by whether it takes one, adds one or leaves SP. The checks keep it from wrapping. -/
theorem effectOf_sp_toNat {i : Instr} {s : State} (hoob : oobOf i s = none) :
    ((controls (kindOf i)).spOp = .none ∧ (effectOf i s).sp = s.sp) ∨
    ((controls (kindOf i)).spOp = .dec ∧ (effectOf i s).sp.toNat + 1 = s.sp.toNat) ∨
    ((controls (kindOf i)).spOp = .inc ∧ (effectOf i s).sp.toNat = s.sp.toNat + 1) := by
  obtain ⟨-, -, hdec, hinc, -⟩ := oobOf_eq_none.1 hoob
  rw [effectOf_sp]
  cases hsp : (controls (kindOf i)).spOp with
  | none => exact .inl ⟨rfl, rfl⟩
  | dec => exact .inr (.inl ⟨rfl, sub_one_toNat_add_one (hdec hsp)⟩)
  | inc => exact .inr (.inr ⟨rfl, add_one_toNat (hinc hsp)⟩)

theorem spOp_eq_dec_iff {k : Kind} : (controls k).spOp = .dec ↔ k ∈ [Kind.push, .call] := by cases k <;> decide

theorem spOp_eq_inc_iff {k : Kind} : (controls k).spOp = .inc ↔ k ∈ [Kind.pop, .ret] := by cases k <;> decide

end Sys2Proof.Machine

/-!
PROOFS of noninterference (10_state.md R23, R28, R33; 20_memory.md R42; 60_exceptions.md R158). What a step does not observe is
a change of the state that commutes with it (`Commutes`, `step_commutes`).
-/

namespace Sys2Proof.Machine

/-! ### A step, forwards -/

theorem step_fetchPc {s : State} (hrun : s.status.run = .running) (hpc : 255 < s.pc.toNat) :
    step s = .next (s.takeTrap .outOfBoundsAccess .fetchPc none) := by
  obtain ⟨-, hfetch⟩ | ⟨hle, -⟩ | ⟨hle, -⟩ := fetchDecode_cases s
  · rw [step_running hrun, hfetch]
  all_goals omega

theorem step_unrecognized {s : State} (hrun : s.status.run = .running) (hpc : s.pc.toNat ≤ 255)
    (hnone : recognize s.params.opcodes (fetchUnit s.mem s.pc).opcode = none) :
    step s = .next (s.takeTrap .unrecognizedOpcode .none (some (fetchUnit s.mem s.pc).opcode)) := by
  obtain ⟨hgt, -⟩ | ⟨-, -, hfetch⟩ | ⟨-, k, hk, -⟩ := fetchDecode_cases s
  · omega
  · rw [step_running hrun, hfetch]
  · simp [hnone] at hk

/-! ### Changes of the state that an instruction does not observe -/

/-- The instruction does the same from `f s` as from `s`, with `f`'s change still there afterwards. -/
structure Commutes (f : State → State) (i : Instr) (s : State) : Prop where
  checks : oobOf i (f s) = oobOf i s
  opcodes : (f s).params.opcodes = s.params.opcodes
  trap : ∀ c kind opcode, (f s).takeTrap c kind opcode = f (s.takeTrap c kind opcode)
  effect : oobOf i s = none → effectOf i (f s) = f (effectOf i s)

theorem Commutes.exec_eq {f : State → State} {i : Instr} {s t : State} (h : Commutes f i s)
    (hexec : exec i s = .next t) : exec i (f s) = .next (f t) := by
  obtain ⟨kind, hoob, rfl⟩ | ⟨hoob, rfl⟩ := exec_cases hexec
  · rw [exec_of_oobOf_eq_some (h.checks.trans hoob), h.trap, h.opcodes, opcodeByte]
  · rw [exec_of_oobOf_eq_none (h.checks.trans hoob), h.effect hoob]

/-- When every instruction commutes with `f`, and `f` leaves what is fetched, so does the step. -/
theorem step_commutes {f : State → State} {s t : State} (hrun : (f s).status = s.status) (hmem : (f s).mem = s.mem)
    (hpc : (f s).pc = s.pc) (h : ∀ i, Commutes f i s) (hstep : step s = .next t) : step (f s) = .next (f t) := by
  have hops := (h .hlt).opcodes
  have htrap := (h .hlt).trap
  obtain ⟨hs, ⟨hgt, rfl⟩ | ⟨hle, hnone, rfl⟩ | ⟨hle, k, hk, hexec⟩⟩ := step_cases hstep
  all_goals rw [← hrun] at hs
  · rw [step_fetchPc hs (by rwa [hpc]), htrap]
  · rw [step_unrecognized hs (by rwa [hpc]) (by rwa [hops, hmem, hpc]), htrap, hmem, hpc]
  · rw [step_of_recognize hs (by rwa [hpc]) (by rwa [hops, hmem, hpc]), hmem, hpc]
    exact (h _).exec_eq hexec

/-! ### SP (R28) -/

theorem commutes_setSp {i : Instr} (hk : kindOf i ∉ [Kind.push, .pop, .call, .ret]) (s : State) (v : Byte) :
    Commutes (·.setSp v) i s where
  checks := by
    cases i with
    | push | pop | call | ret => simp [kindOf] at hk
    | hlt | ldi | prn | mul | add => rfl
  opcodes := rfl
  trap _ _ _ := rfl
  effect _ := by
    cases i with
    | push | pop | call | ret => simp [kindOf] at hk
    | hlt | ldi | prn | mul | add => rfl

/-- Settles O20: a completed step moves SP as its stack pointer control says, and without one SP is not looked at. -/
theorem spMovesOnlyByStackInstructions : Obligations.SpMovesOnlyByStackInstructions := by
  refine ⟨fun s t h => ?_, fun i s t v hk h => (commutes_setSp hk s v).exec_eq h⟩
  obtain ⟨c, kind, opcode, rfl⟩ | ⟨i, rest, hdec, -, hoob, rfl⟩ := step_trap_or_effect h
  · exact .inl rfl
  · obtain ⟨-, hsp⟩ | ⟨hk, hsp⟩ | ⟨hk, hsp⟩ := effectOf_sp_toNat hoob
    · exact .inl hsp
    · exact .inr ⟨i, rest, hdec, .inl ⟨spOp_eq_dec_iff.1 hk, hsp⟩⟩
    · exact .inr ⟨i, rest, hdec, .inr ⟨spOp_eq_inc_iff.1 hk, hsp⟩⟩

/-! ### OUT (R33) -/

/-- OUT with its first `n` bytes replaced by others. -/
def State.replaceOut (o : List Byte) (n : Nat) (s : State) : State := { s with out := o ++ s.out.drop n }

theorem commutes_replaceOut (o : List Byte) (i : Instr) (s : State) :
    Commutes (State.replaceOut o s.out.length) i s where
  checks := rfl
  opcodes := rfl
  trap _ _ _ := rfl
  effect _ := by
    cases i with
    | prn reg =>
      simp [effectOf, State.replaceOut, State.emit, State.setPc, State.readReg, seqPc]
    | hlt | ldi | mul | add | push | pop | call | ret => rfl

/-- Settles O21: PRN alone appends to OUT, and replacing what OUT held before a step commutes with it. -/
theorem outGrowsOnlyByPrn : Obligations.OutGrowsOnlyByPrn := by
  refine ⟨fun _ => rfl, fun s t h => ?_, fun s t o h => ?_⟩
  · obtain ⟨c, kind, opcode, rfl⟩ | ⟨i, rest, hdec, -, -, rfl⟩ := step_trap_or_effect h
    · exact .inl rfl
    · cases i with
      | prn reg => exact .inr ⟨reg, rest, hdec, rfl⟩
      | hlt | ldi | mul | add | push | pop | call | ret => exact .inl rfl
  · have hreplaced : step (s.replaceOut o s.out.length) = .next (t.replaceOut o s.out.length) :=
      step_commutes rfl rfl rfl (fun i => commutes_replaceOut o i s) h
    simpa [State.replaceOut] using hreplaced

/-! ### TRACE_ENABLE (60_exceptions.md R158) -/

/-- `TRACE_ENABLE` set to a value. -/
def State.setTrace (b : Bool) (s : State) : State := { s with params := { s.params with traceEnable := b } }

theorem commutes_setTrace (b : Bool) (i : Instr) (s : State) : Commutes (State.setTrace b) i s where
  checks := rfl
  opcodes := rfl
  trap _ _ _ := rfl
  effect _ := by cases i <;> rfl

/-- Settles O43: no instruction looks at `TRACE_ENABLE`, and the record is the fetch_unit's three bytes with pc and registers. -/
theorem traceHasNoEffect : Obligations.TraceHasNoEffect := by
  refine ⟨fun s t b h => step_commutes (f := State.setTrace b) rfl rfl rfl (fun i => commutes_setTrace b i s) h,
    fun s hrun htrace => if_pos ⟨htrace, hrun⟩, fun s htrace => if_neg fun h => ?_⟩
  simp [htrace] at h

/-! ### Registers (R23) -/

/-- Of two writes the second stays where both are to one register; elsewhere their order does not matter. -/
theorem writeReg_writeReg (s : State) (r x v w : Byte) :
    (s.writeReg r v).writeReg x w = if x = r then s.writeReg x w else (s.writeReg x w).writeReg r v := by
  split
  · subst x
    simp [State.writeReg]
  · have hne : r.toNat ≠ x.toNat := by bv_omega
    simp [State.writeReg, Vector.setIfInBound_comm v w hne]

theorem addOperandB_congr {s t : State} {regA regB : Byte} (hparams : t.params = s.params)
    (hregs : ∀ x ∈ regReads s.params.addBSelect (.add regA regB), t.readReg x = s.readReg x) :
    addOperandB t regA regB = addOperandB s regA regB := by
  unfold addOperandB
  rw [hparams]
  cases hsel : s.params.addBSelect <;> simp [regReads, hsel] at hregs <;> simp [hregs]

/-- The effect reads the registers of R23 only, and overwrites its destination whatever that held. -/
theorem effectOf_writeReg {i : Instr} {s : State} {r : Byte} (v : Byte) (h : r ∉ regReads s.params.addBSelect i) :
    effectOf i (s.writeReg r v) = if destReg i = some r then effectOf i s else (effectOf i s).writeReg r v := by
  have hread : ∀ x ∈ regReads s.params.addBSelect i, (s.writeReg r v).readReg x = s.readReg x :=
    fun x hx => readReg_writeReg_ne v fun e => h (e ▸ hx)
  cases i with
  | hlt | ret => rfl
  | prn reg | push reg | call reg =>
    simp only [effectOf, hread reg (List.mem_singleton_self reg)]
    rfl
  | ldi reg | pop reg =>
    simp only [effectOf, destReg, Option.some.injEq, writeReg_writeReg s r]
    split <;> rfl
  | mul regA regB =>
    simp only [effectOf, destReg, Option.some.injEq, hread regA (by simp [regReads]), hread regB (by simp [regReads]),
      writeReg_writeReg s r]
    split <;> rfl
  | add regA regB =>
    have hA : regA ∈ regReads s.params.addBSelect (.add regA regB) := by
      cases hsel : s.params.addBSelect <;> simp [regReads]
    have hB : addOperandB (s.writeReg r v) regA regB = addOperandB s regA regB := addOperandB_congr rfl hread
    simp only [effectOf, destReg, Option.some.injEq, hread regA hA, hB, writeReg_writeReg s r]
    split <;> rfl

/-- Settles O19: a write to a register that is not read commutes with the traps, and with the effect unless the effect
overwrites it. -/
theorem unreadRegistersDoNotMatter : Obligations.UnreadRegistersDoNotMatter := by
  intro i s r v hrun hr
  have hchecks : oobOf i (s.writeReg r v) = oobOf i s := rfl
  cases hoob : oobOf i s with
  | some kind =>
    refine ⟨_, exec_of_oobOf_eq_some hoob, ?_⟩
    rw [exec_of_oobOf_eq_some (hchecks.trans hoob), if_neg (by simp)]
    rfl
  | none =>
    refine ⟨_, exec_of_oobOf_eq_none hoob, ?_⟩
    have hnext : (effectOf i s).status.run ≠ .faulted := effectOf_not_trapped i hrun
    simp only [exec_of_oobOf_eq_none (hchecks.trans hoob), effectOf_writeReg v hr, hnext, ne_eq, not_false_eq_true,
      and_true]

/-! ### Memory (R42, R70) -/

/-- Writes to two addresses can be exchanged: both orders read alike, and canonical form makes them equal. -/
theorem writeMem_writeMem_comm {s : State} (hwf : s.mem.wf = true) {a b : Byte} (v w : Byte) (h : a ≠ b) :
    (s.writeMem a v).writeMem b w = (s.writeMem b w).writeMem a v := by
  have hmem : (s.mem.write a v).write b w = (s.mem.write b w).write a v := by
    refine Memory.ext_read (Memory.wf_write (Memory.wf_write hwf _ _) _ _)
      (Memory.wf_write (Memory.wf_write hwf _ _) _ _) fun x => ?_
    simp only [Memory.read_write (Memory.wf_write hwf _ _), Memory.read_write hwf]
    grind
  simp [State.writeMem, hmem]

/-- Another value at an address that is not the instruction's data byte commutes with the instruction. -/
theorem commutes_writeMem {i : Instr} {s : State} {a : Byte} (v : Byte) (hwf : s.mem.wf = true)
    (h : dataSlot (kindOf i) s ≠ some a) : Commutes (·.writeMem a v) i s where
  checks := rfl
  opcodes := rfl
  trap _ _ _ := rfl
  effect _ := by
    have hstore (hk : dataSlot (kindOf i) s = some (pushSlot s)) (w : Byte) :=
      writeMem_writeMem_comm hwf (b := pushSlot s) v w fun e => h (hk.trans (congrArg some e.symm))
    cases i with
    | push reg =>
      exact congrArg (fun u => (u.setSp (pushSlot s)).setPc (seqPc s 2)) (hstore rfl _)
    | call reg =>
      exact congrArg (fun u => (u.setSp (pushSlot s)).setPc (zext9 (s.readReg reg))) (hstore rfl _)
    | pop | ret =>
      have hread : (s.writeMem a v).readMem s.sp = s.readMem s.sp := Memory.read_write_ne _ (fun e => h (congrArg some e)) v
      simp only [effectOf, State.writeMem_sp, hread]
      rfl
    | hlt | ldi | prn | mul | add => rfl

theorem speculativeByte_write_ne (m : Memory) {a : Byte} {n : Nat} (v : Byte) (h : a.toNat ≠ n) :
    speculativeByte (m.write a v) n = speculativeByte m n := by
  unfold speculativeByte
  split
  · exact Memory.read_write_ne m (fun e => h (by rw [← e, BitVec.toNat_ofNat]; omega)) v
  · rfl

/-- An instruction is made of the operand bytes its format has. -/
theorem assemble_congr {k : Kind} {x x' y y' : Byte} (hx : 1 ≤ operandCount k → x = x')
    (hy : 2 ≤ operandCount k → y = y') : assemble k x y = assemble k x' y' := by
  cases k <;> simp_all [assemble, operandCount]

/-- Settles O22: a byte outside the instruction leaves what is fetched, and outside its data byte it commutes with it. -/
theorem otherMemoryBytesDoNotMatter : Obligations.OtherMemoryBytesDoNotMatter := by
  intro s k a v hrun hwf hpc hk hout hslot
  rw [← fetchUnit_opcode hpc] at hk
  have hopcode : (fetchUnit (s.mem.write a v) s.pc).opcode = (fetchUnit s.mem s.pc).opcode :=
    speculativeByte_write_ne s.mem v (by omega)
  have hinstr : assemble k (fetchUnit (s.mem.write a v) s.pc).op1 (fetchUnit (s.mem.write a v) s.pc).op2 =
      assemble k (fetchUnit s.mem s.pc).op1 (fetchUnit s.mem s.pc).op2 :=
    assemble_congr (fun _ => speculativeByte_write_ne s.mem v (by omega))
      fun _ => speculativeByte_write_ne s.mem v (by omega)
  have hstep' := step_of_recognize (s := s.writeMem a v) hrun hpc (by rwa [← hopcode] at hk)
  rw [State.writeMem_mem, State.writeMem_pc, hinstr] at hstep'
  obtain ⟨t, ht⟩ := (exists_step_iff_running s).2 hrun
  refine ⟨t, ht, hstep'.trans ((commutes_writeMem v hwf ?_).exec_eq ((step_of_recognize hrun hpc hk).symm.trans ht))⟩
  rwa [kindOf_assemble]

end Sys2Proof.Machine

/-!
PROOFS of the wired blocks (92_eei_decisions.md D19). Their fault signal is the first of the instruction's checks
(`datapathSignal_of_recognize`), the register file's ports are `readReg` and `writeReg` of a checked index, and one commit makes
the trap or the effect.
-/

namespace Sys2Proof.Machine

/-! ### The register file's ports -/

theorem setWidth3_toNat {op : Byte} (h : validReg op = true) : (op.setWidth 3).toNat = op.toNat :=
  (setWidth3_eq (of_decide_eq_true h)).1 rfl |>.symm

/-- A read port driven by a checked register byte gives the register (R24). -/
theorem regFileRead_regIndex {op : Byte} (s : State) (h : validReg op = true) :
    regFileRead s.regs (regIndex true .reg op) = s.readReg op := by
  have hop : op.toNat < 8 := Nat.lt_succ_of_le (of_decide_eq_true h)
  simp [regIndex, regFileRead, State.readReg, setWidth3_toNat h, hop]

/-- The write port driven by a checked register byte writes the register (R24). -/
theorem regFileWrite_regIndex {op : Byte} {wEn : Bool} (s : State) (v : Byte) (h : validReg op = true)
    (hEn : wEn = true) : regFileWrite s.regs wEn (regIndex true .reg op) v = (s.writeReg op v).regs := by
  have hop : op.toNat < 8 := Nat.lt_succ_of_le (of_decide_eq_true h)
  simp [hEn, regIndex, regFileWrite, setWidth3_toNat h, Vector.setIfInBounds, Vector.set, Array.setIfInBounds, hop]

/-- The byte_alu's second input for ADD is the register `ADD_B_SELECT` names (R110). -/
theorem aluInputB_add (s : State) (regA regB : Byte) :
    aluInputB s.params.addBSelect (some .add) (s.readReg regA) (s.readReg regB) = addOperandB s regA regB := by
  unfold aluInputB addOperandB
  cases s.params.addBSelect <;> rfl

/-! ### The fault signal -/

theorem instructionDecoder_of_recognize {m : Opcodes} {opcode : Byte} {k : Kind} (h : recognize m opcode = some k) :
    instructionDecoder m opcode = ⟨true, k, controls k⟩ := by
  simp [instructionDecoder, h]

/-- The fault signal of the wired blocks; the byte on stack_pointer_routing's `reg_data` does not matter to it. -/
def datapathSignal (s : State) (regData : Byte) : Option FaultSignal :=
  let f := fetchUnit s.mem s.pc
  let d := instructionDecoder s.params.opcodes f.opcode
  datapathFault f d (stackRouting s.mem s.sp d.ctl.spOp (writeSelOf d.ctl.mem) regData (pcLogicRetAddr s.pc))
    (pcLogicRetOob s.pc)

section
variable {s : State}

theorem datapathSignal_fetchPc (hpc : 255 < s.pc.toNat) (regData : Byte) :
    datapathSignal s regData = some (.outOfBoundsAccess, .fetchPc, none) := by
  have hoob : (fetchUnit s.mem s.pc).pcOob = true := decide_eq_true hpc
  simp [datapathSignal, datapathFault, operandFault, hoob]

theorem fetchUnit_pcOob (hpc : s.pc.toNat ≤ 255) : (fetchUnit s.mem s.pc).pcOob = false :=
  decide_eq_false (Nat.not_lt.2 hpc)

theorem datapathSignal_unrecognized (hpc : s.pc.toNat ≤ 255)
    (hnone : recognize s.params.opcodes (fetchUnit s.mem s.pc).opcode = none) (regData : Byte) :
    datapathSignal s regData = some (.unrecognizedOpcode, .none, some (fetchUnit s.mem s.pc).opcode) := by
  simp [datapathSignal, datapathFault, operandFault, instructionDecoder, fetchUnit_pcOob hpc, hnone]

/-- The return address of a pc in memory does not wrap. -/
theorem pcLogicRetOob_eq {pc : PcWord} (hpc : pc.toNat ≤ 255) : pcLogicRetOob pc = decide (pc.toNat + 2 > 255) := by
  have hadd : (pc + 2).toNat = pc.toNat + 2 := by bv_omega
  rw [pcLogicRetOob, pcLogicRetAddr, hadd]

/-- The checks of an assembled instruction look at the operand bytes its format has. -/
theorem oobOf_assemble (k : Kind) (x y : Byte) : oobOf (assemble k x y) s = firstOob k x y s := by
  cases k <;> rfl

/-- With a recognized opcode the blocks report the first check of the instruction that fails (R83). -/
theorem datapathSignal_of_recognize {k : Kind} (hpc : s.pc.toNat ≤ 255)
    (hk : recognize s.params.opcodes (fetchUnit s.mem s.pc).opcode = some k) (regData : Byte) :
    datapathSignal s regData =
      (oobOf (assemble k (fetchUnit s.mem s.pc).op1 (fetchUnit s.mem s.pc).op2) s).map
        fun kind => (.outOfBoundsAccess, kind, some (fetchUnit s.mem s.pc).opcode) := by
  rw [oobOf_assemble]
  have h1 : (fetchUnit s.mem s.pc).op1Ok = decide (s.pc.toNat + 1 ≤ 255) := rfl
  have h2 : (fetchUnit s.mem s.pc).op2Ok = decide (s.pc.toNat + 2 ≤ 255) := rfl
  simp only [datapathSignal, datapathFault, operandFault, stackFault, stackRouting, firstOob,
    instructionDecoder_of_recognize hk, fetchUnit_pcOob hpc, pcLogicRetOob_eq hpc, h1, h2]
  simp only [Bool.false_eq_true, Bool.not_true, if_false, Bool.and_eq_true, decide_eq_true_eq, Bool.not_eq_true',
    decide_eq_false_iff_not, not_le, beq_iff_eq, gt_iff_lt]
  -- Both sides now test R83's conditions in the same order.
  grind

/-! ### The commit -/

/-- The fault signal gates every write but trap entry's (R82, R146). -/
theorem datapathStep_of_signal_some {c : Cause} {kind : OobKind} {opcode : Option Byte}
    (hrun : s.status.run = .running) (hsignal : ∀ regData, datapathSignal s regData = some (c, kind, opcode)) :
    datapathStep s = .next (s.takeTrap c kind opcode) := by
  simp only [datapathSignal] at hsignal
  simp [datapathStep, noStep_eq_none.2 hrun, hsignal, pcLogicNext, regFileWrite, State.takeTrap]

/-- Without a fault signal the ports have the checked operand bytes, and the commit is the effect of the instruction fetched. -/
theorem datapathStep_of_signal_none {k : Kind} (hrun : s.status.run = .running) (hpc : s.pc.toNat ≤ 255)
    (hk : recognize s.params.opcodes (fetchUnit s.mem s.pc).opcode = some k)
    (hoob : oobOf (assemble k (fetchUnit s.mem s.pc).op1 (fetchUnit s.mem s.pc).op2) s = none)
    (hsignal : ∀ regData, datapathSignal s regData = none) :
    datapathStep s = .next (effectOf (assemble k (fetchUnit s.mem s.pc).op1 (fetchUnit s.mem s.pc).op2) s) := by
  obtain ⟨hrange, hwf, -⟩ := oobOf_eq_none.1 hoob
  rw [kindOf_assemble] at hrange
  have hpassed := operandFault_eq_none.2 ⟨hpc, k, hk, by omega, hwf⟩
  simp only [datapathSignal, instructionDecoder_of_recognize hk] at hsignal hpassed
  simp only [datapathStep, noStep_eq_none.2 hrun, instructionDecoder_of_recognize hk, hsignal, filePorts, hpassed,
    Option.isNone_none]
  generalize (fetchUnit s.mem s.pc).op1 = x at hwf ⊢
  generalize (fetchUnit s.mem s.pc).op2 = y at hwf ⊢
  cases k with
  | hlt | ret => rfl
  | prn | push | call =>
    simp only [controls, regFileRead_regIndex s hwf]
    rfl
  | ldi | pop =>
    simp only [controls]
    rw [regFileWrite_regIndex s _ hwf] <;> rfl
  | mul =>
    obtain ⟨hx, hy⟩ := Bool.and_eq_true_iff.1 hwf
    simp only [controls, regFileRead_regIndex s hx, regFileRead_regIndex s hy]
    rw [regFileWrite_regIndex s _ hx] <;> rfl
  | add =>
    obtain ⟨hx, hy⟩ := Bool.and_eq_true_iff.1 hwf
    simp only [controls, regFileRead_regIndex s hx, regFileRead_regIndex s hy, aluInputB_add]
    rw [regFileWrite_regIndex s _ hx] <;> rfl

end

/-- Settles O42: by what fetch and decode come to, the signal is FETCH_PC, the unrecognized opcode, or the instruction's own
first check, and the commit is the trap or the effect. -/
theorem datapathMakesTheStep : Obligations.DatapathMakesTheStep := by
  intro s
  cases hn : s.noStep with
  | some f => simp [datapathStep, step, hn]
  | none =>
    have hrun := noStep_eq_none.1 hn
    obtain ⟨hpc, -⟩ | ⟨hpc, hnone, -⟩ | ⟨hpc, k, hk, -⟩ := fetchDecode_cases s
    · rw [datapathStep_of_signal_some hrun (datapathSignal_fetchPc hpc), step_fetchPc hrun hpc]
    · rw [datapathStep_of_signal_some hrun (datapathSignal_unrecognized hpc hnone), step_unrecognized hrun hpc hnone]
    · have hsignal := datapathSignal_of_recognize hpc hk
      rw [step_of_recognize hrun hpc hk]
      cases hoob : oobOf (assemble k (fetchUnit s.mem s.pc).op1 (fetchUnit s.mem s.pc).op2) s with
      | none =>
        rw [hoob] at hsignal
        rw [exec_of_oobOf_eq_none hoob, datapathStep_of_signal_none hrun hpc hk hoob hsignal]
      | some kind =>
        rw [hoob] at hsignal
        rw [exec_of_oobOf_eq_some hoob, datapathStep_of_signal_some hrun hsignal, kindOf_assemble, byteOf_of_recognize hk]

/-! ### The register file's index ports (R24, R89) -/

section
variable {s : State}

/-- The index of a port whose byte is `op`, on an instruction whose role for that byte is `role`: given exactly when the decoded
instruction is well-formed and has a register there, and then that register. -/
theorem regIndex_eq_some_iff_decode {op : Byte} {role : Control → OpRole} {opOf : Instr → Byte} {kinds : List Kind}
    (hkinds : ∀ k, role (controls k) = .reg ↔ k ∈ kinds)
    (hop : ∀ k ∈ kinds, opOf (assemble k (fetchUnit s.mem s.pc).op1 (fetchUnit s.mem s.pc).op2) = op)
    (hvalid : ∀ i : Instr, kindOf i ∈ kinds → i.wellFormed = true → (opOf i).toNat ≤ 7) (idx : BitVec 3) :
    let f := fetchUnit s.mem s.pc
    let d := instructionDecoder s.params.opcodes f.opcode
    regIndex (operandFault f d).isNone (role d.ctl) op = some idx ↔
      ∃ i rest, decode s.params.opcodes (bytesAtPc s) = .ok (i, rest) ∧ i.wellFormed = true ∧ kindOf i ∈ kinds ∧
        (opOf i).toNat = idx.toNat := by
  intro f d
  rw [regIndex_eq_some, Option.isNone_iff_eq_none, operandFault_eq_none]
  constructor
  · rintro ⟨⟨-, k, hk, hrange, hwf⟩, hrole, hidx⟩
    have hmem : k ∈ kinds := (hkinds k).1 (by simpa [d, instructionDecoder, f, hk] using hrole)
    have hkind := kindOf_assemble k f.op1 f.op2
    have hle := hvalid _ (hkind.symm ▸ hmem) hwf
    rw [← hop k hmem] at hidx
    exact ⟨_, _, decode_bytesAtPc_eq_ok.2 ⟨k, hk, hrange, rfl, rfl⟩, hwf, hkind.symm ▸ hmem, (setWidth3_eq hle).1 hidx⟩
  · rintro ⟨i, rest, hdec, hwf, hmem, hidx⟩
    obtain ⟨k, hk, hrange, rfl, -⟩ := decode_bytesAtPc_eq_ok.1 hdec
    have hle := hvalid _ hmem hwf
    rw [kindOf_assemble] at hmem
    refine ⟨⟨by omega, k, hk, hrange, hwf⟩, ?_, ?_⟩
    · rw [show d = _ from instructionDecoder_of_recognize hk]
      exact (hkinds k).2 hmem
    · rw [← hop k hmem]
      exact (setWidth3_eq hle).2 hidx

end

/-- Settles O45: port A has the first operand byte of the seven mnemonics that have one, port B the second of MUL and ADD. -/
theorem onlyCheckedIndicesReachFile : Obligations.OnlyCheckedIndicesReachFile := by
  intro s idx ports
  refine
    ⟨regIndex_eq_some_iff_decode (role := Control.op1Role) (opOf := op1Of) (fun k => ?_) (fun k hk => ?_)
      (fun i hi hwf => ?_) idx,
    regIndex_eq_some_iff_decode (role := Control.op2Role) (opOf := op2Of) (fun k => ?_) (fun k hk => ?_)
      (fun i hi hwf => ?_) idx⟩
  · cases k <;> decide
  · cases k <;> simp_all [assemble, op1Of, operandsOf]
  · cases i <;> simp_all [kindOf, Instr.wellFormed, validReg, op1Of, operandsOf]
  · cases k <;> decide
  · cases k <;> simp_all [assemble, op2Of, operandsOf]
  · cases i <;> simp_all [kindOf, Instr.wellFormed, validReg, op2Of, operandsOf]

end Sys2Proof.Machine

/-!
PROOFS of the invariant and of reset and load (10_state.md sections 4 and 7, 70_reset_and_hazards.md).
-/

namespace Sys2Proof.Machine

/-! ### The invariant -/

/-- A trap for a cause with its own kind leaves a legal STATUS: no byte is recorded for FETCH_PC and for no other kind (R146). -/
theorem takeTrap_status_legal (s : State) {c : Cause} {kind : OobKind} {opcode : Option Byte}
    (hcause : c = .unrecognizedOpcode ∧ kind = .none ∨ c = .outOfBoundsAccess ∧ kind ≠ .none)
    (hopcode : opcode = none ↔ kind = .fetchPc) : (s.takeTrap c kind opcode).status.Legal := by
  constructor
  · exact fun h => absurd rfl h
  · obtain ⟨rfl, -⟩ | ⟨rfl, -⟩ := hcause <;> exact fun _ => nofun
  · obtain ⟨rfl, rfl⟩ | ⟨rfl, hkind⟩ := hcause <;> simp [*]
  · obtain ⟨rfl, -⟩ | ⟨rfl, -⟩ := hcause <;> exact nofun
  · simpa using hopcode
  · rintro h
    simp_all

theorem inv_takeTrap {s : State} (hinv : s.Inv) {c : Cause} {kind : OobKind} {opcode : Option Byte}
    (hcause : c = .unrecognizedOpcode ∧ kind = .none ∨ c = .outOfBoundsAccess ∧ kind ≠ .none)
    (hopcode : opcode = none ↔ kind = .fetchPc) : (s.takeTrap c kind opcode).Inv :=
  ⟨hinv.pc, hinv.mem, takeTrap_status_legal s hcause hopcode, fun _ => rfl, hinv.opcodes⟩

/-- The next pc of R84's table is at most 256 while the instruction lies within memory. -/
theorem nextPcNat_le {i : Instr} {s : State} (hlen : s.pc.toNat + (controls (kindOf i)).len ≤ 256) :
    nextPcNat i s ≤ 256 := by
  cases i with
  | hlt => exact Nat.le_of_add_right_le hlen
  | ldi | prn | mul | add | push | pop => exact hlen
  | call | ret => exact (BitVec.isLt _).le

/-- HLT keeps every field of STATUS but RUN, so a legal STATUS of a RUNNING machine stays legal. -/
theorem effectOf_status_legal (i : Instr) {s : State} (hrun : s.status.run = .running) (h : s.status.Legal) :
    (effectOf i s).status.Legal := by
  obtain ⟨hcause, hkind, hpc, hbyte, hvalid⟩ := h.clear (by simp [hrun])
  rw [effectOf_status]
  split
  · constructor <;> simp_all
  · exact h

theorem inv_effectOf {i : Instr} {s : State} (hinv : s.Inv) (hrun : s.status.run = .running)
    (hlen : s.pc.toNat + (controls (kindOf i)).len ≤ 256) : (effectOf i s).Inv where
  pc := effectOf_pc_toNat hlen ▸ nextPcNat_le hlen
  mem := effectOf_mem_wf i s hinv.mem
  status := effectOf_status_legal i hrun hinv.status
  faultPc h := absurd h (effectOf_not_trapped i hrun)
  opcodes := effectOf_params i s ▸ hinv.opcodes

/-- Settles O39: every trap of the step and every effect keeps the invariant. -/
theorem stepKeepsInvariant : Obligations.StepKeepsInvariant := by
  intro s t hinv h
  obtain ⟨hrun, ⟨-, rfl⟩ | ⟨-, -, rfl⟩ | ⟨hpc, k, -, hexec⟩⟩ := step_cases h
  · exact inv_takeTrap hinv (.inr ⟨rfl, nofun⟩) (by simp)
  · exact inv_takeTrap hinv (.inl ⟨rfl, rfl⟩) (by simp)
  · obtain ⟨kind, hoob, rfl⟩ | ⟨hoob, rfl⟩ := exec_cases hexec
    · obtain ⟨hnone, hfetch⟩ := firstOob_ne hoob
      exact inv_takeTrap hinv (.inr ⟨rfl, hnone⟩) (by simp [hfetch])
    · exact inv_effectOf hinv hrun (pc_add_len_le_of_oobOf_eq_none hpc hoob)

/-- Settles O30: a trap keeps pc, an effect moves it by R84's table; past memory the only trap is FETCH_PC. -/
theorem nextPcStaysInRange : Obligations.NextPcStaysInRange := by
  intro s t hpc h
  constructor
  · obtain ⟨c, kind, opcode, rfl⟩ | ⟨i, -, -, hlen, -, rfl⟩ := step_trap_or_effect h
    · exact hpc
    · exact effectOf_pc_toNat hlen ▸ nextPcNat_le hlen
  · intro h256
    have hfetch := step_fetchPc (step_cases h).1 (by omega : 255 < s.pc.toNat)
    rw [h] at hfetch
    exact Host.Outcome.next.inj hfetch

/-! ### Reset and load -/

theorem Status.initial_legal : Status.initial.Legal := by constructor <;> decide

/-- With a well-formed map, the reset state meets the invariant whatever is loaded. -/
theorem inv_loaded {p : Params} (hops : p.opcodes.wellFormed = true) (image : List Byte) :
    ({ State.initial p with mem := Memory.fill [] 0 image } : State).Inv :=
  ⟨Nat.zero_le 256, Memory.wf_fill image 0 rfl, Status.initial_legal, nofun, hops⟩

/-- Settles O40: nothing is loaded, and the default map is well-formed. -/
theorem invariantAtReset : Obligations.InvariantAtReset :=
  inv_loaded (p := defaultParams) (by decide) []

/-- A machine is built exactly from a well-formed map and an image that fits; it is the reset state with the image loaded. -/
theorem boot_eq_ok {p : Params} {image : List Byte} {s : State} :
    boot p image = .ok s ↔ p.opcodes.wellFormed = true ∧ image.length ≤ 256 ∧
      { State.initial p with mem := Memory.fill [] 0 image } = s := by
  unfold boot
  split
  · simp [*]
  · split
    · simp only [reduceCtorEq, false_iff]
      omega
    · rename_i hops hfit
      rw [Except.ok.injEq]
      exact ⟨fun h => ⟨Bool.not_eq_false _ ▸ hops, Nat.le_of_not_lt hfit, h⟩, fun h => h.2.2⟩

/-- Settles O5: `boot` answers by R65's two conditions and D18's bound. -/
theorem bootExactlyWhenWellFormed : Obligations.BootExactlyWhenWellFormed := by
  intro p image
  simp only [boot_eq_ok, Opcodes.wellFormed_iff, and_assoc, exists_and_left, exists_eq', and_true]

/-- Settles O41: a machine is built from a well-formed map only, and is loaded from reset. -/
theorem invariantAfterBoot : Obligations.InvariantAfterBoot := by
  intro p image s h
  obtain ⟨hops, -, rfl⟩ := boot_eq_ok.1 h
  exact inv_loaded hops image

/-- A read after bytes are filled in from address `a` up: the byte that went there, or what stood there before. -/
theorem Memory.read_fill {bytes : List Byte} {m : Memory} {a : Nat} (hwf : m.wf = true)
    (hfit : a + bytes.length ≤ 256) (x : Byte) :
    (m.fill a bytes).read x = if a ≤ x.toNat then (bytes[x.toNat - a]?).getD (m.read x) else m.read x := by
  induction bytes generalizing m a with
  | nil => simp [Memory.fill]
  | cons b rest ih =>
    rw [List.length_cons] at hfit
    have hx : x = BitVec.ofNat 8 a ↔ x.toNat = a := by
      rw [← BitVec.toNat_inj, BitVec.toNat_ofNat, Nat.mod_eq_of_lt (by omega)]
    rw [Memory.fill, if_pos (by omega), ih (Memory.wf_write hwf _ _) (by omega), Memory.read_write hwf]
    simp only [hx]
    obtain hlt | heq | hgt := Nat.lt_trichotomy x.toNat a
    · rw [if_neg (by omega), if_neg (by omega), if_neg (by omega)]
    · simp [heq]
    · obtain ⟨j, hj⟩ : ∃ j, x.toNat - a = j + 1 := ⟨x.toNat - a - 1, by omega⟩
      rw [if_pos (by omega), if_neg (by omega), if_pos (by omega), hj, List.getElem?_cons_succ,
        show x.toNat - (a + 1) = j by omega]

theorem State.initial_readReg (p : Params) (r : Byte) : (State.initial p).readReg r = 0 := by
  simp only [State.readReg, State.initial, Vector.getElem?_replicate]
  split <;> rfl

/-- Settles O37: `boot` answers the reset state with the image filled in from address 0. -/
theorem bootStateIsSpecified : Obligations.BootStateIsSpecified := by
  intro p image s h
  obtain ⟨-, hfit, rfl⟩ := boot_eq_ok.1 h
  refine ⟨State.initial_readReg p, fun a => ?_, rfl, rfl, rfl, rfl, rfl⟩
  exact (Memory.read_fill rfl (by omega) a).trans (if_pos (Nat.zero_le _))

/-- Settles O38: the reset state is `State.initial` of the defaults. -/
theorem resetStateHasDefaults : Obligations.ResetStateHasDefaults :=
  ⟨rfl, rfl, fun _ => rfl, State.initial_readReg _, rfl, rfl, rfl, rfl, rfl, rfl⟩

end Sys2Proof.Machine

/-!
PROOFS of 41_basic.md to 44_subroutine.md: for each instruction its effect where it completes, and its faults in the order of
the checks.
-/

namespace Sys2Proof.Machine

/-! ### Register indices, and the faults that several instructions share -/

theorem validReg_eq_false_iff {b : Byte} : validReg b = false ↔ 8 ≤ b.toNat := by
  rw [validReg, decide_eq_false_iff_not]
  omega

theorem validReg_pair_eq_true {a b : Byte} (ha : a.toNat ≤ 7) (hb : b.toNat ≤ 7) :
    (validReg a && validReg b) = true :=
  Bool.and_eq_true_iff.2 ⟨decide_eq_true ha, decide_eq_true hb⟩

theorem validReg_pair_eq_false {a b : Byte} (h : 8 ≤ a.toNat ∨ 8 ≤ b.toNat) : (validReg a && validReg b) = false :=
  Bool.and_eq_false_iff.2 (h.imp validReg_eq_false_iff.2 validReg_eq_false_iff.2)

section
variable {i : Instr} {s : State} {n : Nat}

/-- An instruction one of whose `n` operand bytes lies past 255. -/
theorem exec_operandFetch (hn : operandCount (kindOf i) = n) (hpos : n ≠ 0) (hrange : 255 < s.pc.toNat + n) :
    exec i s = .next (s.takeTrap .outOfBoundsAccess .operandFetch (some (s.params.opcodes.byteOf (kindOf i)))) := by
  subst hn
  exact exec_of_oobOf_eq_some (oobOf_operandFetch hpos hrange)

/-- An instruction whose `n` operand bytes are in memory, with an invalid register index among them. -/
theorem exec_regIndex (hn : operandCount (kindOf i) = n) (hrange : s.pc.toNat + n ≤ 255) (hwf : i.wellFormed = false) :
    exec i s = .next (s.takeTrap .outOfBoundsAccess .regIndex (some (s.params.opcodes.byteOf (kindOf i)))) := by
  subst hn
  exact exec_of_oobOf_eq_some (oobOf_regIndex hrange hwf)

/-- PUSH or CALL, its byte in memory and its index valid, with SP at 0. -/
theorem exec_spDecrement (hk : kindOf i ∈ [Kind.push, .call]) (hrange : s.pc.toNat ≤ 254) (hwf : i.wellFormed = true)
    (hsp : s.sp = 0) :
    exec i s = .next (s.takeTrap .outOfBoundsAccess .spDecrement (some (s.params.opcodes.byteOf (kindOf i)))) := by
  have hcount : operandCount (kindOf i) = 1 := by cases i <;> simp_all [kindOf, operandCount]
  exact exec_of_oobOf_eq_some <| by
    rw [oobOf_of_wellFormed (.inr (by omega)) hwf, if_pos ⟨spOp_eq_dec_iff.2 hk, hsp⟩]

/-- POP or RET, its byte in memory if it has one and its index valid, with SP at 255. -/
theorem exec_spIncrement (hk : kindOf i ∈ [Kind.pop, .ret])
    (hrange : operandCount (kindOf i) = 0 ∨ s.pc.toNat + operandCount (kindOf i) ≤ 255) (hwf : i.wellFormed = true)
    (hsp : s.sp = 255) :
    exec i s = .next (s.takeTrap .outOfBoundsAccess .spIncrement (some (s.params.opcodes.byteOf (kindOf i)))) := by
  have hop : (controls (kindOf i)).spOp = .inc := spOp_eq_inc_iff.2 hk
  exact exec_of_oobOf_eq_some <| by
    rw [oobOf_of_wellFormed hrange hwf, if_neg (by simp [hop]), if_pos ⟨hop, hsp⟩]

end

/-! ### LDI and PRN -/

/-- Settles O8: LDI completes, or one of its operand bytes or its index stops it. -/
theorem ldiLoadsImmediate : Obligations.LdiLoadsImmediate := by
  refine fun reg imm s => ⟨rfl, fun hpc hreg => ?_, fun hpc => ?_, fun hpc hreg => ?_⟩
  · exact ⟨_, exec_ldi imm hreg (by omega), rfl, readReg_writeReg_same imm s hreg,
      fun r hr => readReg_writeReg_ne imm hr.symm, seqPc_toNat (by omega)⟩
  · exact exec_operandFetch (i := .ldi reg imm) (n := 2) rfl nofun (by omega)
  · exact exec_regIndex (i := .ldi reg imm) (n := 2) rfl (by omega) (validReg_eq_false_iff.2 hreg)

/-- Settles O9: PRN completes and OUT's lines gain the line of the byte emitted, or its operand byte or its index stops it. -/
theorem prnEmitsRegister : Obligations.PrnEmitsRegister := by
  refine fun reg s => ⟨rfl, fun hpc hreg => ?_, fun hpc => ?_, fun hpc hreg => ?_⟩
  · exact ⟨_, exec_prn hreg (by omega), rfl, List.map_append, seqPc_toNat (by omega)⟩
  · exact exec_operandFetch (i := .prn reg) (n := 1) rfl nofun (by omega)
  · exact exec_regIndex (i := .prn reg) (n := 1) rfl (by omega) (validReg_eq_false_iff.2 hreg)

/-! ### MUL and ADD -/

/-- MUL completes where its two operand bytes are in memory and both registers are among the eight. -/
theorem exec_mul {regA regB : Byte} {s : State} (hA : regA.toNat ≤ 7) (hB : regB.toNat ≤ 7) (hpc : s.pc.toNat + 2 ≤ 255) :
    exec (.mul regA regB) s =
      .next ((s.writeReg regA (byteAlu .mul (s.readReg regA) (s.readReg regB))).setPc (seqPc s 3)) :=
  exec_of_oobOf_eq_none <| oobOf_eq_none.2 ⟨.inr hpc, validReg_pair_eq_true hA hB, nofun, nofun, nofun⟩

/-- ADD completes where MUL does; the second register is checked even when it is not read (D8). -/
theorem exec_add {regA regB : Byte} {s : State} (hA : regA.toNat ≤ 7) (hB : regB.toNat ≤ 7) (hpc : s.pc.toNat + 2 ≤ 255) :
    exec (.add regA regB) s =
      .next ((s.writeReg regA (byteAlu .add (s.readReg regA) (addOperandB s regA regB))).setPc (seqPc s 3)) :=
  exec_of_oobOf_eq_none <| oobOf_eq_none.2 ⟨.inr hpc, validReg_pair_eq_true hA hB, nofun, nofun, nofun⟩

/-- Settles O10: MUL writes the byte_alu's product (R111), or one of its operand bytes or indices stops it. -/
theorem mulMultipliesModulo256 : Obligations.MulMultipliesModulo256 := by
  refine fun regA regB s => ⟨rfl, fun hpc hA hB => ?_, fun hpc => ?_, fun hpc hreg => ?_⟩
  · refine ⟨_, exec_mul hA hB (by omega), rfl, ?_, fun r hr => readReg_writeReg_ne _ hr.symm, seqPc_toNat (by omega)⟩
    rw [State.setPc_readReg, readReg_writeReg_same _ s hA, byteAlu_mul_toNat]
  · exact exec_operandFetch (i := .mul regA regB) (n := 2) rfl nofun (by omega)
  · exact exec_regIndex (i := .mul regA regB) (n := 2) rfl (by omega) (validReg_pair_eq_false hreg)

/-- Settles O11: ADD writes the byte_alu's sum (R111) of the operands `ADD_B_SELECT` names, or is stopped as MUL is. -/
theorem addAddsModulo256 : Obligations.AddAddsModulo256 := by
  refine fun regA regB s => ⟨rfl, fun hpc hA hB => ?_, fun hpc => ?_, fun hpc hreg => ?_⟩
  · refine ⟨_, exec_add hA hB (by omega), rfl, fun hsel => ?_, fun hsel => ?_,
      fun r hr => readReg_writeReg_ne _ hr.symm, seqPc_toNat (by omega)⟩
    all_goals rw [State.setPc_readReg, readReg_writeReg_same _ s hA, byteAlu_add_toNat, addOperandB, hsel]
  · exact exec_operandFetch (i := .add regA regB) (n := 2) rfl nofun (by omega)
  · exact exec_regIndex (i := .add regA regB) (n := 2) rfl (by omega) (validReg_pair_eq_false hreg)

/-! ### PUSH and POP -/

/-- Settles O12: PUSH stores at the slot, which a memory in canonical form reads back, or the first check that fails stops it. -/
theorem pushStoresBelowSp : Obligations.PushStoresBelowSp := by
  refine fun reg s => ⟨rfl, fun hpc hreg hsp => ?_, fun hpc => ?_, fun hpc hreg => ?_, fun hpc hreg hsp => ?_⟩
  · exact ⟨_, exec_push hreg hsp (by omega), rfl, rfl, sub_one_toNat_add_one hsp,
      fun hwf => (Memory.read_write hwf _ _ _).trans (if_pos rfl), fun a ha => Memory.read_write_ne _ ha _,
      seqPc_toNat (by omega)⟩
  · exact exec_operandFetch (i := .push reg) (n := 1) rfl nofun (by omega)
  · exact exec_regIndex (i := .push reg) (n := 1) rfl (by omega) (validReg_eq_false_iff.2 hreg)
  · exact exec_spDecrement (i := .push reg) (by simp [kindOf]) hpc (decide_eq_true hreg) hsp

/-- Settles O13: POP writes its register and SP, or the first check that fails stops it. -/
theorem popLoadsFromSp : Obligations.PopLoadsFromSp := by
  refine fun reg s => ⟨rfl, fun hpc hreg hsp => ?_, fun hpc => ?_, fun hpc hreg => ?_, fun hpc hreg hsp => ?_⟩
  · exact ⟨_, exec_pop hreg hsp (by omega), rfl, readReg_writeReg_same _ s hreg,
      fun r hr => readReg_writeReg_ne _ hr.symm, add_one_toNat hsp, seqPc_toNat (by omega)⟩
  · exact exec_operandFetch (i := .pop reg) (n := 1) rfl nofun (by omega)
  · exact exec_regIndex (i := .pop reg) (n := 1) rfl (by omega) (validReg_eq_false_iff.2 hreg)
  · exact exec_spIncrement (i := .pop reg) (by simp [kindOf]) (.inr (Nat.succ_le_succ hpc)) (decide_eq_true hreg) hsp

/-! ### CALL and RET -/

/-- CALL completes where its operand byte and the return address are in memory, its register is one of the eight and SP is not 0. -/
theorem exec_call {reg : Byte} {s : State} (hreg : reg.toNat ≤ 7) (hsp : s.sp ≠ 0) (hpc : s.pc.toNat + 2 ≤ 255) :
    exec (.call reg) s =
      .next (((s.writeMem (pushSlot s) (returnByte s)).setSp (pushSlot s)).setPc (zext9 (s.readReg reg))) :=
  exec_of_oobOf_eq_none <| oobOf_eq_none.2
    ⟨.inr (Nat.le_of_succ_le hpc), decide_eq_true hreg, fun _ => hsp, nofun, fun _ => hpc⟩

/-- RET completes where SP is not 255. -/
theorem exec_ret {s : State} (hsp : s.sp ≠ 255) :
    exec .ret s = .next ((s.setSp (s.sp + 1)).setPc (zext9 (s.readMem s.sp))) :=
  exec_of_oobOf_eq_none <| oobOf_eq_none.2 ⟨.inl rfl, rfl, nofun, fun _ => hsp, nofun⟩

/-- The byte CALL stores is the return address while that is an address (R86). -/
theorem returnByte_toNat {s : State} (hpc : s.pc.toNat + 2 ≤ 255) : (returnByte s).toNat = s.pc.toNat + 2 := by
  rw [returnByte, BitVec.toNat_setWidth, BitVec.toNat_add]
  show (s.pc.toNat + 2) % 2 ^ 9 % 2 ^ 8 = _
  omega

/-- Settles O14: CALL stores the return address's byte and jumps, or the first of its four checks that fails stops it. -/
theorem callStoresReturnAndJumps : Obligations.CallStoresReturnAndJumps := by
  refine fun reg s => ⟨rfl, fun hpc hreg hsp => ?_, fun hpc => ?_, fun hpc hreg => ?_, fun hpc hreg hsp => ?_,
    fun hpc hreg hsp => ?_⟩
  · refine ⟨_, exec_call hreg hsp (by omega), rfl, rfl, sub_one_toNat_add_one hsp, fun hwf => ?_,
      fun a ha => Memory.read_write_ne _ ha _, zext9_toNat _⟩
    have hread : (s.mem.write (pushSlot s) (returnByte s)).read (pushSlot s) = returnByte s :=
      (Memory.read_write hwf _ _ _).trans (if_pos rfl)
    exact (congrArg BitVec.toNat hread).trans (returnByte_toNat (by omega))
  · exact exec_operandFetch (i := .call reg) (n := 1) rfl nofun (by omega)
  · exact exec_regIndex (i := .call reg) (n := 1) rfl (by omega) (validReg_eq_false_iff.2 hreg)
  · exact exec_spDecrement (i := .call reg) (by simp [kindOf]) hpc (decide_eq_true hreg) hsp
  · have hoob : oobOf (.call reg) s = some .returnAddress := by
      rw [oobOf_of_wellFormed (i := .call reg) (.inr (by simp [hpc, kindOf, operandCount])) (decide_eq_true hreg)]
      simpa [kindOf, controls, hpc] using hsp
    exact exec_of_oobOf_eq_some hoob

/-- Settles O15: RET has no operand byte and no index, so SP alone can stop it. -/
theorem retPopsPc : Obligations.RetPopsPc := by
  refine fun s => ⟨rfl, fun hsp => ?_, fun hsp => ?_⟩
  · exact ⟨_, exec_ret hsp, rfl, zext9_toNat _, add_one_toNat hsp⟩
  · exact exec_spIncrement (i := .ret) (by simp [kindOf]) (.inl rfl) rfl hsp

end Sys2Proof.Machine

/-!
PROOFS of the faults and the end of a run (60_exceptions.md sections 1 and 3, 40_cycle.md sections 1 and 5). The list of R83
read from memory is what the fetch and the instruction's own checks report (`listedFault_of_recognize`).
-/

namespace Sys2Proof.Machine

/-! ### REG_INDEX -/

/-- Settles O17: behind the check of its bytes an invalid index is an instruction's first fault; with valid ones the kinds left
are others, and a completed instruction keeps the kind NONE of a RUNNING machine. -/
theorem regIndexTrapsExactlyWhenInvalid : Obligations.RegIndexTrapsExactlyWhenInvalid := by
  refine fun i s hrun hinv hrange => ⟨fun hwf => exec_regIndex rfl hrange hwf, fun hwf => ?_⟩
  cases hoob : oobOf i s with
  | some kind =>
    refine ⟨_, exec_of_oobOf_eq_some hoob, fun hkind => oobOf_ne_regIndex hwf (hoob.trans ?_)⟩
    exact congrArg some hkind
  | none =>
    obtain ⟨-, hkind, -⟩ := (effectOf_status_legal i hrun hinv.status).clear (effectOf_not_trapped i hrun)
    exact ⟨_, exec_of_oobOf_eq_none hoob, by simp [hkind]⟩

/-! ### R83's list -/

section
variable {s : State}

theorem listedFault_fetchPc (hpc : 255 < s.pc.toNat) : listedFault s = some (.outOfBoundsAccess, .fetchPc) :=
  if_pos hpc

theorem listedFault_unrecognized (hpc : s.pc.toNat ≤ 255)
    (hnone : recognize s.params.opcodes (fetchUnit s.mem s.pc).opcode = none) :
    listedFault s = some (.unrecognizedOpcode, .none) := by
  rw [fetchUnit_opcode hpc] at hnone
  simp only [listedFault, Nat.add_zero, hnone]
  rw [if_neg (by omega)]

/-- An assembled instruction has an invalid index exactly when an operand byte its mnemonic uses as an index is 8 or more. -/
theorem assemble_wellFormed_eq_false {k : Kind} {x y : Byte} :
    (assemble k x y).wellFormed = false ↔
      (k ∈ [Kind.ldi, .prn, .mul, .add, .push, .pop, .call] ∧ 8 ≤ x.toNat) ∨ (k ∈ [Kind.mul, .add] ∧ 8 ≤ y.toNat) := by
  cases k <;> simp [assemble, Instr.wellFormed, validReg_eq_false_iff, -Bool.and_eq_false_imp, Bool.and_eq_false_iff]

theorem fetchUnit_op1 (hpc : s.pc.toNat + 1 ≤ 255) :
    (fetchUnit s.mem s.pc).op1 = s.readMem (BitVec.ofNat 8 (s.pc.toNat + 1)) :=
  if_pos hpc

theorem fetchUnit_op2 (hpc : s.pc.toNat + 2 ≤ 255) :
    (fetchUnit s.mem s.pc).op2 = s.readMem (BitVec.ofNat 8 (s.pc.toNat + 2)) :=
  if_pos hpc

theorem one_le_operandCount {k : Kind} (h : k ∈ [Kind.ldi, .prn, .mul, .add, .push, .pop, .call]) :
    1 ≤ operandCount k := by
  cases k <;> simp_all [operandCount]

theorem operandCount_eq_two {k : Kind} (h : k ∈ [Kind.mul, .add]) : operandCount k = 2 := by
  cases k <;> simp_all [operandCount]

/-- With a recognized opcode the list names the first of the instruction's own checks that fails. -/
theorem listedFault_of_recognize {k : Kind} (hpc : s.pc.toNat ≤ 255)
    (hk : recognize s.params.opcodes (fetchUnit s.mem s.pc).opcode = some k) :
    listedFault s = (oobOf (assemble k (fetchUnit s.mem s.pc).op1 (fetchUnit s.mem s.pc).op2) s).map
      fun kind => (.outOfBoundsAccess, kind) := by
  rw [fetchUnit_opcode hpc] at hk
  simp only [listedFault, Nat.add_zero, hk, oobOf_eq, kindOf_assemble, assemble_wellFormed_eq_false]
  rw [if_neg (by omega)]
  by_cases hrange : 255 < s.pc.toNat + operandCount k
  · rw [if_pos hrange, if_pos ⟨by omega, hrange⟩]
    rfl
  have hop1 : k ∈ [Kind.ldi, .prn, .mul, .add, .push, .pop, .call] ∧ 8 ≤ (fetchUnit s.mem s.pc).op1.toNat ↔
      k ∈ [Kind.ldi, .prn, .mul, .add, .push, .pop, .call] ∧ 8 ≤ (s.readMem (BitVec.ofNat 8 (s.pc.toNat + 1))).toNat :=
    and_congr_right fun h => by
      have hone := one_le_operandCount h
      rw [fetchUnit_op1 (by omega)]
  have hop2 : k ∈ [Kind.mul, .add] ∧ 8 ≤ (fetchUnit s.mem s.pc).op2.toNat ↔
      k ∈ [Kind.mul, .add] ∧ 8 ≤ (s.readMem (BitVec.ofNat 8 (s.pc.toNat + 2))).toNat :=
    and_congr_right fun h => by
      have htwo := operandCount_eq_two h
      rw [fetchUnit_op2 (by omega)]
  have hbytes : ¬ (operandCount k ≠ 0 ∧ 255 < s.pc.toNat + operandCount k) := fun h => hrange h.2
  simp only [if_neg hrange, if_neg hbytes, spOp_eq_dec_iff, spOp_eq_inc_iff, hop1, hop2, ite_or, apply_ite (Option.map _),
    Option.map_some, Option.map_none, ge_iff_le, gt_iff_lt]

end

/-- Settles O24: by what fetch and decode come to, the list and the step name the same fault. -/
theorem firstListedFaultIsRaised : Obligations.FirstListedFaultIsRaised := by
  intro s hrun
  obtain ⟨hpc, -⟩ | ⟨hpc, hnone, -⟩ | ⟨hpc, k, hk, -⟩ := fetchDecode_cases s
  · rw [step_fetchPc hrun hpc, listedFault_fetchPc hpc, if_neg (by omega)]
    exact ⟨fun c kind h => by cases h; rfl, nofun⟩
  · rw [step_unrecognized hrun hpc hnone, listedFault_unrecognized hpc hnone, if_pos hpc, fetchUnit_opcode hpc]
    exact ⟨fun c kind h => by cases h; rfl, nofun⟩
  · rw [step_of_recognize hrun hpc hk, listedFault_of_recognize hpc hk, if_pos hpc]
    cases hoob : oobOf (assemble k (fetchUnit s.mem s.pc).op1 (fetchUnit s.mem s.pc).op2) s with
    | none => exact ⟨nofun, fun _ => ⟨_, exec_of_oobOf_eq_none hoob, effectOf_not_trapped _ hrun⟩⟩
    | some kind =>
      refine ⟨fun c kind' h => ?_, nofun⟩
      cases h
      rw [exec_of_oobOf_eq_some hoob, kindOf_assemble, byteOf_of_recognize hk, fetchUnit_opcode hpc]

/-! ### What ends a run -/

/-- A step traps exactly when R83's list names a fault. -/
theorem trapped_iff_listedFault_ne_none {s t : State} (h : step s = .next t) : t.trapped ↔ listedFault s ≠ none := by
  obtain ⟨hfault, hcomplete⟩ := firstListedFaultIsRaised s (step_cases h).1
  cases hlist : listedFault s with
  | none =>
    obtain ⟨u, hu, hnot⟩ := hcomplete hlist
    obtain rfl : t = u := Host.Outcome.next.inj (h.symm.trans hu)
    simp [hnot]
  | some signal =>
    obtain rfl := Host.Outcome.next.inj (h.symm.trans (hfault signal.1 signal.2 hlist))
    simp [State.trapped]

theorem kindOf_eq_hlt {i : Instr} : kindOf i = .hlt ↔ i = .hlt := by cases i <;> simp [kindOf]

theorem effectOf_run_eq_halted {i : Instr} {s : State} (hrun : s.status.run = .running) :
    (effectOf i s).status.run = .halted ↔ i = .hlt := by
  rw [effectOf_status, ← kindOf_eq_hlt]
  split <;> simp [*]

/-- Settles O27: a trap faults and is one of the list's; of the effects HLT's alone halts. -/
theorem onlyHltOrFaultEndsRun : Obligations.OnlyHltOrFaultEndsRun := by
  intro s t h
  have htrap := trapped_iff_listedFault_ne_none h
  refine ⟨?_, htrap⟩
  obtain ⟨c, kind, opcode, rfl⟩ | ⟨i, rest, hdec, -, -, rfl⟩ := step_trap_or_effect h
  · exact ⟨nofun, fun hhalt => absurd hhalt.1 (htrap.1 rfl)⟩
  · have hrun := (step_cases h).1
    have hnone : listedFault s = none := not_not.1 (mt htrap.2 (effectOf_not_trapped i hrun))
    simp only [effectOf_run_eq_halted hrun, hnone, true_and, hdec, Except.ok.injEq, Prod.mk.injEq, exists_and_left,
      exists_eq', and_true]

/-! ### Runs and their final observation -/

theorem runSteps_of_step {s t : State} (h : step s = .next t) (k : Nat) : runSteps (k + 1) s = runSteps k t := by
  rw [runSteps, h]

/-- Where the machine has no step the run stays. -/
theorem runSteps_of_not_running {s : State} (h : s.status.run ≠ .running) (k : Nat) : runSteps k s = s := by
  cases k with
  | zero => rfl
  | succ k =>
    rw [runSteps]
    split
    · rename_i t ht
      exact absurd ((exists_step_iff_running s).1 ⟨t, ht⟩) h
    · rfl
    · rfl

theorem runSteps_add (k j : Nat) (s : State) : runSteps (k + j) s = runSteps j (runSteps k s) := by
  induction k generalizing s with
  | zero => rw [Nat.zero_add, runSteps]
  | succ k ih =>
    by_cases hrun : s.status.run = .running
    · obtain ⟨t, ht⟩ := (exists_step_iff_running s).2 hrun
      rw [Nat.succ_add, runSteps_of_step ht, runSteps_of_step ht, ih]
    · simp only [runSteps_of_not_running hrun]

theorem finalObservation_eq_some {k : Nat} {s t : State} :
    finalObservation k s = some t ↔ runSteps k s = t ∧ t.status.run ≠ .running := by
  unfold finalObservation
  constructor
  · intro h
    split at h <;> simp_all
  · rintro ⟨rfl, hrun⟩
    split <;> simp_all

theorem finalObservation_eq_none {k : Nat} {s : State} :
    finalObservation k s = none ↔ (runSteps k s).status.run = .running := by
  unfold finalObservation
  split <;> simp_all

/-- Settles O28: a run that is no longer RUNNING has no step and stays, and while it is RUNNING it has one. -/
theorem finalObservationIsFinal : Obligations.FinalObservationIsFinal := by
  refine fun k s => ⟨fun t h => ?_, fun h => ?_⟩
  · obtain ⟨rfl, hrun⟩ := finalObservation_eq_some.1 h
    refine ⟨hrun, fun u hu => hrun ((exists_step_iff_running _).1 ⟨u, hu⟩), fun j hj => ?_⟩
    obtain ⟨n, rfl⟩ := Nat.exists_eq_add_of_le hj
    exact finalObservation_eq_some.2 ⟨by rw [runSteps_add, runSteps_of_not_running hrun], hrun⟩
  · have hrun := finalObservation_eq_none.1 h
    exact ⟨hrun, (exists_step_iff_running _).2 hrun⟩

end Sys2Proof.Machine

/-!
PROOFS of 20_memory.md section 4, 43_stack.md and 44_subroutine.md over several instructions: the last write is what is read and
fetched, SP bounds the stack, and no completed instruction stores at or above a bound that SP stays within.
-/

namespace Sys2Proof.Machine

/-! ### Reads and fetches (R50, R68, D14) -/

/-- Settles O6: the outputs are the fetch_unit's definition; pc 256 is the only one out of range. -/
theorem fetchUnitReadsThreeBytes : Obligations.FetchUnitReadsThreeBytes := by
  refine fun m pc hpc => ⟨?_, rfl, decide_eq_true_iff, rfl, decide_eq_true_iff, rfl⟩
  rw [fetchUnit, decide_eq_true_iff]
  omega

theorem Memory.wf_foldl_write (writes : List (Byte × Byte)) {m : Memory} (hwf : m.wf = true) :
    (writes.foldl (fun m w => m.write w.1 w.2) m).wf = true := by
  induction writes generalizing m with
  | nil => exact hwf
  | cons w rest ih => exact ih (Memory.wf_write hwf _ _)

/-- Settles O31, by induction on the writes from the last one back. -/
theorem readGivesLastWrite : Obligations.ReadGivesLastWrite := by
  intro m writes a hwf
  induction writes using List.reverseRecOn with
  | nil => rfl
  | append_singleton writes w ih =>
    rw [List.foldl_append, List.foldl_cons, List.foldl_nil, Memory.read_write (Memory.wf_foldl_write writes hwf), ih,
      List.reverse_append, List.reverse_singleton, List.singleton_append, List.find?_cons]
    by_cases ha : w.1 = a
    · simp [ha]
    · simp [beq_false_of_ne ha, Ne.symm ha]

theorem speculativeByte_eq_read {m : Memory} {a : Byte} {n : Nat} (h : n = a.toNat) : speculativeByte m n = m.read a := by
  subst h
  rw [speculativeByte, if_pos (Nat.le_of_lt_succ a.isLt), BitVec.ofNat_toNat, BitVec.setWidth_eq]

/-- Settles O32: the effect stores the byte at the slot, and each output of the fetch_unit reads the address it is made from. -/
theorem fetchSeesStackStore : Obligations.FetchSeesStackStore := by
  intro i s t stored pc hrun hwf hexec ht hstored
  have hread : t.mem.read (pushSlot s) = stored := by
    obtain ⟨kind, -, rfl⟩ | ⟨-, rfl⟩ := exec_cases hexec
    · contradiction
    · obtain ⟨reg, rfl, rfl⟩ | ⟨reg, rfl, rfl⟩ := hstored <;>
        exact (Memory.read_write hwf _ _ _).trans (if_pos rfl)
  exact ⟨fun h => (speculativeByte_eq_read h).trans hread, fun h => (speculativeByte_eq_read h).trans hread,
    fun h => (speculativeByte_eq_read h).trans hread⟩

/-! ### SP bounds the stack -/

theorem decrements_cons (i : Instr) (is : List Instr) :
    decrements (i :: is) = decrements is + if (controls (kindOf i)).spOp = .dec then 1 else 0 := by
  simp [decrements, List.countP_cons, spOp_eq_dec_iff]

/-- Instructions that end without a trap started without one. -/
theorem not_trapped_of_execAll {is : List Instr} {s t : State} (h : execAll is s = .next t) (ht : ¬ t.trapped) :
    ¬ s.trapped := by
  cases is with
  | nil => exact Host.Outcome.next.inj h ▸ ht
  | cons i rest =>
    obtain ⟨hrun, -⟩ := execAll_cons_eq_next.1 h
    simp [State.trapped, hrun]

/-- A completed list without POP and RET takes one from SP for each PUSH and CALL. -/
theorem execAll_sp {is : List Instr} {s t : State} (his : ∀ i ∈ is, kindOf i ∉ [Kind.pop, .ret])
    (h : execAll is s = .next t) (ht : ¬ t.trapped) : t.sp.toNat + decrements is = s.sp.toNat := by
  induction is generalizing s with
  | nil =>
    obtain rfl := Host.Outcome.next.inj h
    rfl
  | cons i rest ih =>
    obtain ⟨hi, hrest⟩ := List.forall_mem_cons.1 his
    obtain ⟨-, u, hu, hrun⟩ := execAll_cons_eq_next.1 h
    have hsp := ih hrest hrun
    rw [decrements_cons]
    obtain ⟨kind, -, rfl⟩ | ⟨hoob, rfl⟩ := exec_cases hu
    · exact absurd rfl (not_trapped_of_execAll hrun ht)
    · obtain ⟨hop, heq⟩ | ⟨hop, heq⟩ | ⟨hop, -⟩ := effectOf_sp_toNat hoob
      · simp [hop, ← heq, hsp]
      · simp only [hop, if_true]
        omega
      · exact absurd (spOp_eq_inc_iff.1 hop) hi

/-- Settles O36: SP goes down by one for each PUSH and CALL that completes, and at 0 the next is stopped. -/
theorem stackCapacityIsSp : Obligations.StackCapacityIsSp :=
  ⟨fun _ _ _ his h ht => execAll_sp his h ht, fun _ _ hk hwf hpc hsp => exec_spDecrement hk hpc hwf hsp⟩

/-! ### CALL and RET at any depth -/

/-- Only an instruction that decrements SP stores, and it stores at the slot below SP (R42). -/
theorem storeSlot_eq_some {i : Instr} {s : State} {a : Byte} (h : storeSlot i s = some a) :
    (controls (kindOf i)).spOp = .dec ∧ s.sp - 1 = a := by
  cases i <;> simp_all [storeSlot, kindOf, controls, pushSlot]

/-- An instruction that completes from SP at or below a bound leaves the byte at the bound. -/
theorem effectOf_readMem_bound {i : Instr} {s : State} {bound : Byte} (hoob : oobOf i s = none)
    (hsp : s.sp.toNat ≤ bound.toNat) : (effectOf i s).readMem bound = s.readMem bound := by
  refine effectOf_readMem_of_ne fun hslot => ?_
  obtain ⟨hop, rfl⟩ := storeSlot_eq_some hslot
  obtain ⟨-, -, hdec, -⟩ := oobOf_eq_none.1 hoob
  have hslot := sub_one_toNat_add_one (hdec hop)
  omega

theorem completesWithin_readMem {bound : Byte} {s u : State} (h : CompletesWithin bound s u)
    (hsp : s.sp.toNat ≤ bound.toNat) :
    u.sp.toNat ≤ bound.toNat ∧ u.readMem bound = s.readMem bound := by
  induction h with
  | refl => exact ⟨hsp, rfl⟩
  | next i before executes running within ih =>
    obtain ⟨hle, hread⟩ := ih
    refine ⟨within, ?_⟩
    obtain ⟨kind, -, rfl⟩ | ⟨hoob, rfl⟩ := exec_cases executes
    · contradiction
    · exact (effectOf_readMem_bound hoob hle).trans hread

/-- Settles O35: what completes below CALL's SP keeps the byte there, which RET takes for its pc. -/
theorem retResumesAfterCall : Obligations.RetResumesAfterCall := by
  intro reg s hreg hwf hsp hpc
  have hexec := exec_call (s := s) hreg hsp (by omega)
  refine ⟨_, hexec, fun u hu => (completesWithin_readMem hu le_rfl).2, fun u husp hu => ?_⟩
  have hbyte : u.readMem u.sp = returnByte s := by
    rw [husp]
    exact (hu.elim (fun h => (completesWithin_readMem h le_rfl).2) id).trans
      ((Memory.read_write hwf _ _ _).trans (if_pos rfl))
  refine ⟨_, exec_ret (husp ▸ sub_one_ne_255 hsp), ?_, ?_⟩
  · rw [State.setPc_pc, zext9_toNat, hbyte, returnByte_toNat (by omega)]
  · rw [State.setPc_sp, State.setSp_sp, husp]
    simp [pushSlot]

end Sys2Proof.Machine

/-!
PROOFS of program text (30_encoding.md section 6). A line's token is what stands between the white space, with or without a
comment (`lineToken_eq`); the line is read by its token alone.
-/

namespace Sys2Proof.Machine

/-! ### A line's token -/

/-- The text before the first `#`, stripped of white space (R72). -/
def lineToken (line : List Char) : List Char := stripBlanks (line.takeWhile fun c => c != '#')

theorem parseLine_eq (line : List Char) :
    parseLine line =
      if (lineToken line).isEmpty then .ok none
      else if (lineToken line).all isBinaryDigit && decide ((lineToken line).length ≤ 8) then
        .ok (some (BitVec.ofNat 8 (binaryValue (lineToken line))))
      else .error .badLiteral := rfl

theorem dropWhile_append_of_head? {p : Char → Bool} {before rest : List Char} (hbefore : before.all p = true)
    (hrest : ∀ c, rest.head? = some c → p c = false) : (before ++ rest).dropWhile p = rest := by
  rw [List.dropWhile_append_of_pos (List.all_eq_true.1 hbefore)]
  cases rest with
  | nil => rfl
  | cons c cs => exact List.dropWhile_cons_of_neg (by simp [hrest c rfl])

/-- White space on both sides of a text that neither starts nor ends with any is all that is stripped. -/
theorem stripBlanks_eq {before token after : List Char} (hbefore : before.all isBlankChar = true)
    (hafter : after.all isBlankChar = true) (hne : token ≠ [])
    (hends : ∀ c, token.head? = some c ∨ token.getLast? = some c → isBlankChar c = false) :
    stripBlanks (before ++ token ++ after) = token := by
  have hhead : ∀ c, (token ++ after).head? = some c → isBlankChar c = false := by
    intro c hc
    rw [List.head?_append_of_ne_nil _ hne] at hc
    exact hends c (.inl hc)
  have hlast : ∀ c, token.reverse.head? = some c → isBlankChar c = false :=
    fun c hc => hends c (.inr (List.head?_reverse ▸ hc))
  rw [stripBlanks, List.append_assoc, dropWhile_append_of_head? hbefore hhead, List.reverse_append,
    dropWhile_append_of_head? (by rwa [List.all_reverse]) hlast, List.reverse_reverse]

theorem stripBlanks_blank {blank : List Char} (h : blank.all isBlankChar = true) : stripBlanks blank = [] := by
  have hdrop := dropWhile_append_of_head? (rest := []) h nofun
  rw [List.append_nil] at hdrop
  rw [stripBlanks, hdrop]
  rfl

/-- A comment after a text without `#`, or none, leaves the text. -/
theorem takeWhile_comment {text : List Char} (h : '#' ∉ text) (comment : List Char) :
    text.takeWhile (fun c => c != '#') = text ∧ (text ++ '#' :: comment).takeWhile (fun c => c != '#') = text := by
  have hall : ∀ c ∈ text, (c != '#') = true := fun c hc => bne_iff_ne.2 (ne_of_mem_of_not_mem hc h)
  refine ⟨List.takeWhile_eq_self_iff.2 hall, ?_⟩
  rw [List.takeWhile_append_of_pos hall, List.takeWhile_cons_of_neg (by simp), List.append_nil]

theorem hash_not_mem_of_blank {blank : List Char} (h : blank.all isBlankChar = true) : '#' ∉ blank :=
  fun hmem => absurd (List.all_eq_true.1 h '#' hmem) (by decide)

/-- The token of a line of white space around a text without `#`, with a comment after it or without. -/
theorem lineToken_eq {before token after : List Char} (hbefore : before.all isBlankChar = true)
    (hafter : after.all isBlankChar = true) (hne : token ≠ []) (hhash : '#' ∉ token)
    (hends : ∀ c, token.head? = some c ∨ token.getLast? = some c → isBlankChar c = false) (comment : List Char) :
    lineToken (before ++ token ++ after) = token ∧ lineToken (before ++ token ++ after ++ '#' :: comment) = token := by
  have htext : '#' ∉ before ++ token ++ after := by
    simp [hash_not_mem_of_blank hbefore, hash_not_mem_of_blank hafter, hhash]
  obtain ⟨hplain, hcomment⟩ := takeWhile_comment htext comment
  rw [lineToken, lineToken, hplain, hcomment, stripBlanks_eq hbefore hafter hne hends]
  exact ⟨rfl, rfl⟩

/-! ### The token's value -/

theorem binaryValue_append_singleton (ds : List Char) (c : Char) :
    binaryValue (ds ++ [c]) = 2 * binaryValue ds + if c = '1' then 1 else 0 := by
  rw [binaryValue, List.foldl_append]
  rfl

theorem binaryValue_lt (ds : List Char) : binaryValue ds < 2 ^ ds.length := by
  induction ds using List.reverseRecOn with
  | nil => exact Nat.one_pos
  | append_singleton ds c ih =>
    rw [binaryValue_append_singleton, List.length_append, List.length_singleton, Nat.pow_succ]
    split <;> omega

theorem parseLine_binary {line digits : List Char} (h : lineToken line = digits) (hne : digits ≠ [])
    (hlen : digits.length ≤ 8) (hdigits : ∀ c ∈ digits, c = '0' ∨ c = '1') :
    parseLine line = .ok (some (BitVec.ofNat 8 (binaryValue digits))) := by
  have hall : digits.all isBinaryDigit = true := by simpa [isBinaryDigit] using hdigits
  rw [parseLine_eq, h, if_neg (by simpa using hne), if_pos (by simp [hall, hlen])]

theorem parseLine_bad {line token : List Char} (h : lineToken line = token) (hne : token ≠ [])
    (hbad : ¬ (token.length ≤ 8 ∧ ∀ c ∈ token, c = '0' ∨ c = '1')) : parseLine line = .error .badLiteral := by
  rw [parseLine_eq, h, if_neg (by simpa using hne), if_neg]
  simpa [isBinaryDigit, and_comm] using hbad

theorem parseLine_blank {line : List Char} (h : lineToken line = []) : parseLine line = .ok none := by
  rw [parseLine_eq, h]
  rfl

/-! ### The text -/

/-- Lines with a bad one among them give no image. -/
theorem parseLines_ne_ok {line : List Char} {e : LoadError} (hbad : parseLine line = .error e) {lines : List (List Char)}
    (hmem : line ∈ lines) (image : List Byte) : parseLines lines ≠ .ok image := by
  induction lines generalizing image with
  | nil => contradiction
  | cons first rest ih =>
    rw [parseLines]
    obtain rfl | hrest := List.mem_cons.1 hmem
    · simp [hbad]
    · cases hlines : parseLines rest with
      | ok bytes => exact absurd hlines (ih hrest bytes)
      | error e' => cases parseLine first <;> simp

theorem loadSource_ne_ok {p : Params} {text line : List Char} {e : LoadError} (hmem : line ∈ text.splitOn '\n')
    (hbad : parseLine line = .error e) (s : State) : loadSource p (some text) ≠ .ok s := by
  cases hlines : parseLines (text.splitOn '\n') with
  | error e' => simp [loadSource, hlines]
  | ok image => exact absurd hlines (parseLines_ne_ok hbad hmem image)

/-- Settles O44: in each clause the line's token is known, and its digits or their absence decide what the line gives. -/
theorem programLineIsParsed : Obligations.ProgramLineIsParsed := by
  refine ⟨?_, ?_, ?_, ?_, rfl, ?_⟩
  · intro before digits after comment hbefore hafter hne hlen hdigits
    have hends : ∀ c ∈ digits, isBlankChar c = false := fun c hc => by obtain rfl | rfl := hdigits c hc <;> decide
    obtain ⟨hplain, hcomment⟩ := lineToken_eq hbefore hafter hne
      (fun hmem => by simpa using hdigits '#' hmem)
      (fun c hc => hends c (hc.elim List.mem_of_head? List.mem_of_getLast?)) comment
    refine ⟨_, ?_, parseLine_binary hplain hne hlen hdigits, parseLine_binary hcomment hne hlen hdigits⟩
    have hlt : binaryValue digits < 2 ^ 8 :=
      (binaryValue_lt digits).trans_le (Nat.pow_le_pow_right Nat.two_pos hlen)
    rw [BitVec.toNat_ofNat, Nat.mod_eq_of_lt hlt]
  · intro blank comment hblank
    obtain ⟨hplain, hcomment⟩ := takeWhile_comment (hash_not_mem_of_blank hblank) comment
    exact ⟨parseLine_blank (by rw [lineToken, hplain, stripBlanks_blank hblank]),
      parseLine_blank (by rw [lineToken, hcomment, stripBlanks_blank hblank])⟩
  · intro before token after comment hbefore hafter hne hhash hends hbad
    obtain ⟨hplain, hcomment⟩ := lineToken_eq hbefore hafter hne hhash hends comment
    exact ⟨parseLine_bad hplain hne hbad, parseLine_bad hcomment hne hbad⟩
  · intro p text line s hmem hbad
    exact loadSource_ne_ok hmem hbad s
  · exact fun ds => ⟨binaryValue_append_singleton ds '0', binaryValue_append_singleton ds '1'⟩

end Sys2Proof.Machine
